-- ==== Sys2Proof/Word.lean ====
section
/-! DEFINITION. The word types of pixel_buffer_engine: bytes, packed colors, 16-bit operands, command words (spec/00_scope.md R7, R10). -/
namespace Sys2Proof

/-- An 8-bit channel, brightness factor, hue position or hue shift, and one byte of the buffer. -/
abbrev Byte := BitVec 8

/-- A 16-bit pixel index, scroll amount or delay in milliseconds. -/
abbrev Half := BitVec 16

/-- A packed color `0xWWRRGGBB`, and the width of the host-readable registers. -/
abbrev Color := BitVec 32

/-- A command word `cmd`. -/
abbrev CmdWord := BitVec 64

end Sys2Proof
end

