-- ==== Sys2Proof/Config.lean ====
section
/-! DEFINITION. The construction parameters of an engine instance (spec/00_scope.md R6, R7) and the one instance `State.reset` names.

No value of this spec is left to a free constant: what the spec leaves open (`NPIX`, `LAYOUT`, `CH_ORDER`,
`INIT_BUFFER`) is a parameter every state carries, so a statement about every state holds for every value of it. -/
namespace Sys2Proof

/-- `channelLayout`, "one of {RGB, RGBW}" (R6). -/
inductive Layout where
  | rgb | rgbw
deriving DecidableEq, Repr

/-- `CH_ORDER`: the byte offset of each channel inside a pixel (R6). -/
structure ChOrder where
  rOff : Fin 4
  gOff : Fin 4
  bOff : Fin 4
  /-- Unused in an `RGB` instance. -/
  wOff : Fin 4
deriving DecidableEq, Repr

/-- The construction parameters, fixed for the life of an instance (R6, R21). -/
structure Params where
  /-- `NPIX`. -/
  npix   : Nat
  /-- `LAYOUT`. -/
  layout : Layout
  /-- `CH_ORDER`. -/
  order  : ChOrder
  /-- `INIT_BUFFER`: the buffer's bytes after construction or reset, byte 0 first. -/
  init   : List Byte
deriving DecidableEq, Repr

/-- `STRIDE`: 3 bytes if `RGB`, 4 if `RGBW`; derived, never stored (R6). -/
def Layout.stride : Layout → Nat
  | .rgb => 3
  | .rgbw => 4

/-- `STRIDE` of an instance. -/
def Params.stride (p : Params) : Nat := p.layout.stride

/-- `BUFLEN = NPIX * STRIDE` (R7). -/
def Params.bufLen (p : Params) : Nat := p.npix * p.stride

/-- `REF`, the order of the spec's test vectors (R8). -/
def ChOrder.ref : ChOrder := ⟨0, 1, 2, 3⟩

/-- What an address that `State.mem` does not list reads as. DESIGN CHOICE, unsafe only through the `INIT_BUFFER` of `Params.reference` (log 4). -/
def unlistedByte : Byte := 0

/-- The instance `State.reset` is an instance of: 4 pixels, `RGB`, `REF`, all bytes zero.
DESIGN CHOICE, unsafe (log 3, log 4). -/
def Params.reference : Params :=
  { npix := 4, layout := .rgb, order := .ref, init := List.replicate 12 0 }

end Sys2Proof
end

