-- ==== Sys2Proof/Syntax.lean ====
section
/-! DEFINITION. The commands of spec/30_encoding.md R65, one constructor of `Instr` per row of spec/opcode_table.json. -/
namespace Sys2Proof

/-- A command with its operand fields (R62). Each field has its encoded width as its type, so every
term is well formed and an operand that does not fit cannot be written (R64, R69). -/
inductive Instr where
  /-- NOP, R161. -/
  | nop
  /-- PACK `WCH, RCH, GCH, BCH`, R100. -/
  | pack (w r g b : Byte)
  /-- GETW `COLOR`, R101. -/
  | getw (color : Color)
  /-- GETR `COLOR`, R102. -/
  | getr (color : Color)
  /-- GETG `COLOR`, R103. -/
  | getg (color : Color)
  /-- GETB `COLOR`, R104. -/
  | getb (color : Color)
  /-- SCALE `COLOR, FACTOR`, R110. -/
  | scale (color : Color) (factor : Byte)
  /-- HUE `POS`, R120. -/
  | hue (pos : Byte)
  /-- SETPIX `IDX, COLOR`, R132. -/
  | setpix (idx : Half) (color : Color)
  /-- GETPIX `IDX`, R133. -/
  | getpix (idx : Half)
  /-- WIPES `COLOR, DELAY`, R140. -/
  | wipes (color : Color) (delay : Half)
  /-- WIPER `SHIFT, DELAY`, R142. -/
  | wiper (shift : Byte) (delay : Half)
  /-- SCRLF `AMOUNT, COLOR`, R151. -/
  | scrlf (amount : Half) (color : Color)
  /-- SCRLB `AMOUNT, COLOR`, R152. -/
  | scrlb (amount : Half) (color : Color)
  /-- SHOW, R160. -/
  | showBuf
deriving DecidableEq, Repr

/-- The mnemonics of R65, without operands. -/
inductive Op where
  | nop | pack | getw | getr | getg | getb | scale | hue | setpix | getpix
  | wipes | wiper | scrlf | scrlb | showBuf
deriving DecidableEq, Repr

/-- The formats of R63. -/
inductive Format where
  | f0 | fc | fs | fb | fnc | fn | fnb
deriving DecidableEq, Repr

/-- Why a word names no command (R67 (a) and (b)). Both are the one rejection of R171. -/
inductive Illegal where
  /-- Raised by the decoder: the opcode byte is in no row of R65 (R67 (a)). Safe: the spec's own rejection. -/
  | unassignedOpcode
  /-- Raised by the decoder: a bit under the format's reserved mask is 1 (R67 (b)). Safe: the spec's own rejection. -/
  | reservedBits
deriving DecidableEq, Repr

/-- Every mnemonic, in the order of R65. -/
def Op.all : List Op :=
  [.nop, .pack, .getw, .getr, .getg, .getb, .scale, .hue, .setpix, .getpix,
   .wipes, .wiper, .scrlf, .scrlb, .showBuf]

/-- The mnemonic of a command. -/
def Instr.op : Instr → Op
  | .nop => .nop
  | .pack _ _ _ _ => .pack
  | .getw _ => .getw
  | .getr _ => .getr
  | .getg _ => .getg
  | .getb _ => .getb
  | .scale _ _ => .scale
  | .hue _ => .hue
  | .setpix _ _ => .setpix
  | .getpix _ => .getpix
  | .wipes _ _ => .wipes
  | .wiper _ _ => .wiper
  | .scrlf _ _ => .scrlf
  | .scrlb _ _ => .scrlb
  | .showBuf => .showBuf

end Sys2Proof
end

