-- ==== Sys2Proof/WellFormed.lean ====
section
/-! DEFINITION. Which construction parameters and which command words are legal (spec/00_scope.md R6, spec/43_channel_multiplexer.md R136, spec/30_encoding.md R67).

An `Instr` needs no check of its own: every operand's width is its type. -/
namespace Sys2Proof

/-- `CH_ORDER` is legal for a layout: the channel offsets are the bytes of the pixel, each once (R136).
Distinct offsets below `STRIDE` are exactly that. -/
def ChOrder.legal (l : Layout) (o : ChOrder) : Bool :=
  match l with
  | .rgb => [o.rOff.val, o.gOff.val, o.bOff.val].all (· < 3) && decide ([o.rOff, o.gOff, o.bOff].Nodup)
  | .rgbw => decide ([o.rOff, o.gOff, o.bOff, o.wOff].Nodup)

/-- The parameters an instance may be constructed with (R6, R136): at most 65535 pixels, a legal channel
order, and `INIT_BUFFER` of exactly `BUFLEN` bytes. -/
def Params.legal (p : Params) : Bool :=
  decide (p.npix ≤ 65535) && p.order.legal p.layout && decide (p.init.length = p.bufLen)

/-- A row of spec/opcode_table.json: the bits under `mask` must equal `pattern`. -/
structure TableRow where
  op      : Op
  pattern : CmdWord
  mask    : CmdWord
deriving DecidableEq, Repr

/-- spec/opcode_table.json, row by row. It is a second reading of the encoding, beside the decoder's R65 and R66. -/
def opcodeTable : List TableRow :=
  [⟨.nop,     0x0000000000000000#64, 0xFFFFFFFFFFFFFFFF#64⟩,
   ⟨.pack,    0x0100000000000000#64, 0xFFFFFFFF00000000#64⟩,
   ⟨.getw,    0x0200000000000000#64, 0xFFFFFFFF00000000#64⟩,
   ⟨.getr,    0x0300000000000000#64, 0xFFFFFFFF00000000#64⟩,
   ⟨.getg,    0x0400000000000000#64, 0xFFFFFFFF00000000#64⟩,
   ⟨.getb,    0x0500000000000000#64, 0xFFFFFFFF00000000#64⟩,
   ⟨.scale,   0x0600000000000000#64, 0xFFFFFF0000000000#64⟩,
   ⟨.hue,     0x0700000000000000#64, 0xFFFFFFFFFFFFFF00#64⟩,
   ⟨.setpix,  0x1000000000000000#64, 0xFFFF000000000000#64⟩,
   ⟨.getpix,  0x1100000000000000#64, 0xFFFF0000FFFFFFFF#64⟩,
   ⟨.wipes,   0x2000000000000000#64, 0xFFFF000000000000#64⟩,
   ⟨.wiper,   0x2100000000000000#64, 0xFFFF0000FFFFFF00#64⟩,
   ⟨.scrlf,   0x3000000000000000#64, 0xFFFF000000000000#64⟩,
   ⟨.scrlb,   0x3100000000000000#64, 0xFFFF000000000000#64⟩,
   ⟨.showBuf, 0x4000000000000000#64, 0xFFFFFFFFFFFFFFFF#64⟩]

/-- The word matches the row. -/
def TableRow.hits (r : TableRow) (w : CmdWord) : Bool := w &&& r.mask == r.pattern

/-- A legal word: some row of the table matches it (R67: "every word is either a command of rule R65 with its
reserved bits 0, or illegal"). -/
def legalWord (w : CmdWord) : Bool := opcodeTable.any (·.hits w)

end Sys2Proof
end

