-- ==== Sys2Proof/Decode.lean ====
section
/-! DEFINITION. The decoder of spec/30_encoding.md R65, R66, total on every 64-bit word and rejecting by name, and the encoder from the same tables. -/
namespace Sys2Proof

/-- `OPC`, the opcode column of R65. -/
def Op.opcode : Op → Byte
  | .nop => 0x00
  | .pack => 0x01
  | .getw => 0x02
  | .getr => 0x03
  | .getg => 0x04
  | .getb => 0x05
  | .scale => 0x06
  | .hue => 0x07
  | .setpix => 0x10
  | .getpix => 0x11
  | .wipes => 0x20
  | .wiper => 0x21
  | .scrlf => 0x30
  | .scrlb => 0x31
  | .showBuf => 0x40

/-- The format column of R65. -/
def Op.format : Op → Format
  | .nop => .f0
  | .pack => .fc
  | .getw => .fc
  | .getr => .fc
  | .getg => .fc
  | .getb => .fc
  | .scale => .fs
  | .hue => .fb
  | .setpix => .fnc
  | .getpix => .fn
  | .wipes => .fnc
  | .wiper => .fnb
  | .scrlf => .fnc
  | .scrlb => .fnc
  | .showBuf => .f0

/-- `RESERVED_MASK` of R66. -/
def Format.reservedMask : Format → CmdWord
  | .f0  => 0x00FFFFFFFFFFFFFF
  | .fc  => 0x00FFFFFF00000000
  | .fs  => 0x00FFFF0000000000
  | .fb  => 0x00FFFFFFFFFFFF00
  | .fnc => 0x00FF000000000000
  | .fn  => 0x00FF0000FFFFFFFF
  | .fnb => 0x00FF0000FFFFFF00

/-- `OPC = cmd[63:56]` (R61). -/
def opcField (w : CmdWord) : Byte := w.extractLsb' 56 8

/-- `COLOR = cmd[31:0]` (R62). -/
def colorField (w : CmdWord) : Color := w.extractLsb' 0 32

/-- `WCH = cmd[31:24]` (R62). -/
def wchField (w : CmdWord) : Byte := w.extractLsb' 24 8

/-- `RCH = cmd[23:16]` (R62). -/
def rchField (w : CmdWord) : Byte := w.extractLsb' 16 8

/-- `GCH = cmd[15:8]` (R62). -/
def gchField (w : CmdWord) : Byte := w.extractLsb' 8 8

/-- `BCH`, `POS` and `SHIFT`, all `cmd[7:0]` (R62). -/
def lowByteField (w : CmdWord) : Byte := w.extractLsb' 0 8

/-- `FACTOR = cmd[39:32]` (R62). -/
def factorField (w : CmdWord) : Byte := w.extractLsb' 32 8

/-- `IDX`, `AMOUNT` and `DELAY`, all `cmd[47:32]` (R62). -/
def n16Field (w : CmdWord) : Half := w.extractLsb' 32 16

/-- The row of R65 with this opcode. -/
def opOf (opc : Byte) : Option Op := Op.all.find? (fun op => op.opcode == opc)

/-- The operand fields of a word, by mnemonic (R62, R65). -/
def readOperands (w : CmdWord) : Op → Instr
  | .nop => .nop
  | .pack => .pack (wchField w) (rchField w) (gchField w) (lowByteField w)
  | .getw => .getw (colorField w)
  | .getr => .getr (colorField w)
  | .getg => .getg (colorField w)
  | .getb => .getb (colorField w)
  | .scale => .scale (colorField w) (factorField w)
  | .hue => .hue (lowByteField w)
  | .setpix => .setpix (n16Field w) (colorField w)
  | .getpix => .getpix (n16Field w)
  | .wipes => .wipes (colorField w) (n16Field w)
  | .wiper => .wiper (lowByteField w) (n16Field w)
  | .scrlf => .scrlf (n16Field w) (colorField w)
  | .scrlb => .scrlb (n16Field w) (colorField w)
  | .showBuf => .showBuf

/-- `Decode(cmd)` of R66: the opcode's row, then the reserved bits, then the fields. -/
def decodeWord (w : CmdWord) : Except Illegal Instr :=
  match opOf (opcField w) with
  | none => .error .unassignedOpcode
  | some op =>
    if w &&& op.format.reservedMask = 0 then .ok (readOperands w op) else .error .reservedBits

/-- A field with its bit 0 at bit `lo` of the word. -/
def placed {n : Nat} (lo : Nat) (x : BitVec n) : CmdWord := x.setWidth 64 <<< lo

/-- The operand fields of a command at their bits (R62, R63). -/
def operandBits : Instr → CmdWord
  | .nop => 0
  | .pack w r g b => placed 24 w ||| placed 16 r ||| placed 8 g ||| placed 0 b
  | .getw c => placed 0 c
  | .getr c => placed 0 c
  | .getg c => placed 0 c
  | .getb c => placed 0 c
  | .scale c f => placed 32 f ||| placed 0 c
  | .hue p => placed 0 p
  | .setpix n c => placed 32 n ||| placed 0 c
  | .getpix n => placed 32 n
  | .wipes c n => placed 32 n ||| placed 0 c
  | .wiper p n => placed 32 n ||| placed 0 p
  | .scrlf n c => placed 32 n ||| placed 0 c
  | .scrlb n c => placed 32 n ||| placed 0 c
  | .showBuf => 0

/-- The word of a command (R63, R65): the opcode above the operand fields, reserved bits 0. -/
def encode (i : Instr) : CmdWord := placed 56 i.op.opcode ||| operandBits i

/-- The command the decoder reads from a word numbered as spec/opcode_table.json numbers it. A command is one
64-bit word (R61, R68), so no other length, shorter or longer, and no number of more than 64 bits makes a command. -/
def decodeTableWord (nbits w : Nat) : Option Instr :=
  if nbits = 64 ∧ w < 2 ^ 64 then (decodeWord (BitVec.ofNat 64 w)).toOption else none

end Sys2Proof
end

