-- ==== Sys2Proof/Machine/State.lean ====
section
/-! DEFINITION. The state of an engine instance (spec/10_state.md R20, R27, R31) as plain data, the reasons a step can stop, and the state after reset (R32). -/
namespace Sys2Proof.Machine

/-- The pixel buffer as (address, byte) pairs (spec/20_memory.md R40). -/
abbrev Memory := List Host.Cell

/-- The one canonical form of a memory: addresses strictly rising, and no entry equal to what an unlisted address reads as. -/
abbrev Memory.wf (m : Memory) : Prop :=
  m.Pairwise (fun x y => x.1 < y.1) ∧ ∀ c ∈ m, c.2 ≠ unlistedByte

/-- An entry of the event history (R31, spec/60_exceptions.md R182). -/
inductive Event where
  /-- `Display(snap)`: the whole buffer, byte 0 first (R180). -/
  | display (snap : List Byte)
  /-- `Wait(ms)` (R181). -/
  | wait (ms : Half)
deriving DecidableEq, Repr

/-- An accepted command that is in flight across a handshake: only WIPES, WIPER and SHOW can be (R28).
It is the accepted word `cmd` of R27, decoded (log 6). -/
inductive Job where
  | wipes (color : Color) (delay : Half)
  | wiper (shift : Byte) (delay : Half)
  | showBuf
deriving DecidableEq, Repr

/-- `stage` of R27. -/
inductive Stage where
  | write | awaitDisplay | awaitWait | awaitFinalDisplay
deriving DecidableEq, Repr

/-- `phase` of R27: `IDLE`, or `RUN(cmd, i, stage)` with `i` the next pixel index of a wipe. -/
inductive Phase where
  | idle
  | run (job : Job) (i : Nat) (stage : Stage)
deriving DecidableEq, Repr

/-- One sample of the engine's 1-bit input lines (spec/30_encoding.md R60). -/
structure Lines where
  rst     : Bool
  dispAck : Bool
  waitAck : Bool
deriving DecidableEq, Repr

/-- Every line low. -/
def Lines.low : Lines := ⟨false, false, false⟩

/-- Collaborators that acknowledge at once, no reset: the environment R183 asks for. -/
def Lines.prompt : Lines := ⟨false, true, true⟩

/-- The state of one engine instance (R20), its event history (R31), and its inputs (R60). -/
structure State where
  /-- The construction parameters (R6). -/
  params  : Params
  /-- The pixel buffer `buf` (R40). -/
  mem     : Memory
  /-- `RESULT` (R24). -/
  result  : BitVec 32
  /-- `STATUS.ILLEGAL` (R25). -/
  illegal : Bool
  /-- `phase` (R27); `STATUS.BUSY` is `phase ≠ IDLE`. -/
  phase   : Phase
  /-- The event history, oldest first (R31, R182). -/
  events  : List Event
  /-- The words the host presents at the command port, in order: the first is `cmd_word`, and `cmd_valid` is 1
  while there is one (R60, log 1). -/
  cmds    : List CmdWord
  /-- The input lines, one sample a step; the last sample stays (log 2). The model's own field. -/
  inputs  : List Lines
deriving DecidableEq, Repr

/-- Why a step stops with a fault. -/
inductive Fault where
  /-- `fault OutOfRange(IDX)`, code 2 of R173: raised by SETPIX and GETPIX with `IDX ≥ NPIX` (R172). It carries the
  index the fault record holds. Safe: the spec gives the access no result, and the run ends. -/
  | pixelIndexOutOfRange (idx : Half)
deriving DecidableEq, Repr

/-- Why there is no meaning to give. -/
inductive Refusal where
  /-- Raised by `exec` alone, for a command with no meaning yet. Safe. No arm raises it. -/
  | notModelled (mnemonic : String)
  /-- Raised by `construct` for parameters that break R6 or R136 (R192). Safe: the spec asks for the refusal. No step raises it. -/
  | illegalParameters
deriving DecidableEq, Repr

/-- The machine right after reset (R32), for the instance `Params.reference`: `RESULT` and `STATUS` 0, `IDLE`, the
buffer `INIT_BUFFER` (all zero in that instance, so nothing is listed), no event; no command offered, and the
input lines prompt. DESIGN CHOICE where R32 names a parameter, and for the lines (log 3, log 4, log 5). -/
def State.reset : State :=
  { params := Params.reference
    mem := []
    result := 0
    illegal := false
    phase := .idle
    events := []
    cmds := []
    inputs := [Lines.prompt] }

end Sys2Proof.Machine
end

