-- ==== Sys2Proof/Machine/Operands.lean ====
section
/-! DEFINITION. Packed colors: the four channels and `Pack` (spec/00_scope.md R13). The operand fields of a word are in Sys2Proof/Decode.lean. -/
namespace Sys2Proof.Machine

/-- `W(c) = c[31:24]`. -/
def chanW (c : Color) : Byte := c.extractLsb' 24 8

/-- `R(c) = c[23:16]`. -/
def chanR (c : Color) : Byte := c.extractLsb' 16 8

/-- `G(c) = c[15:8]`. -/
def chanG (c : Color) : Byte := c.extractLsb' 8 8

/-- `B(c) = c[7:0]`. -/
def chanB (c : Color) : Byte := c.extractLsb' 0 8

/-- `Pack(w, r, g, b) = (w << 24) | (r << 16) | (g << 8) | b`. -/
def packColor (w r g b : Byte) : Color :=
  w.setWidth 32 <<< 24 ||| r.setWidth 32 <<< 16 ||| g.setWidth 32 <<< 8 ||| b.setWidth 32

/-- `zext_32` of a channel (R11, R101). -/
def zextChannel (x : Byte) : BitVec 32 := x.setWidth 32

/-- The same operation on each of the four channels, independently (R106). -/
def mapChannels (f : Byte → Byte) (c : Color) : Color :=
  packColor (f (chanW c)) (f (chanR c)) (f (chanG c)) (f (chanB c))

end Sys2Proof.Machine
end

