-- ==== Sys2Proof/Machine/Ops.lean ====
section
/-! DEFINITION. The named operations over the buffer, the registers, the handshakes and the ports (spec/00_scope.md R12), the rejection of an illegal word (R171), the out-of-range fault (R172) and reset (R190). -/
namespace Sys2Proof.Machine

open Host (Outcome)

/-! ### Bytes of the buffer (R44) -/

/-- `MemRead(a, 1)`. -/
def memRead : Memory → Nat → Byte
  | [], _ => unlistedByte
  | (k, b) :: m, a => if k = a then b else memRead m a

/-- Drop what the memory lists for an address. -/
def memErase (m : Memory) (a : Nat) : Memory := m.filter (fun c => c.1 != a)

/-- List a byte, in its place among rising addresses. -/
def memInsert (a : Nat) (b : Byte) : Memory → Memory
  | [] => [(a, b)]
  | (k, c) :: m => if a < k then (a, b) :: (k, c) :: m else (k, c) :: memInsert a b m

/-- `MemWrite(a, 1, b)`, in canonical form: writing what an unlisted address reads as removes the entry. -/
def memWrite (m : Memory) (a : Nat) (b : Byte) : Memory :=
  if b = unlistedByte then memErase m a else memInsert a b (memErase m a)

/-- The bytes at `a`, `a+1`, …, `a+n-1`. -/
def readBytes (m : Memory) (a : Nat) : Nat → List Byte
  | 0 => []
  | n + 1 => memRead m a :: readBytes m (a + 1) n

/-- Write bytes at `a`, `a+1`, …. -/
def writeBytes (m : Memory) (a : Nat) : List Byte → Memory
  | [] => m
  | b :: bs => writeBytes (memWrite m a b) (a + 1) bs

/-- `MoveBytes(dst, src, len)`: all reads first, then all writes, so an overlap does not matter (R49). -/
def moveBytes (m : Memory) (dst src len : Nat) : Memory :=
  writeBytes m dst (readBytes m src len)

/-! ### Pixels, through the channel multiplexer (R130, R131) -/

/-- `PixWrite(i, c)` (R130). -/
def pixWrite (p : Params) (i : Nat) (c : Color) (m : Memory) : Memory :=
  let base := i * p.stride
  let m := memWrite m (base + p.order.rOff.val) (chanR c)
  let m := memWrite m (base + p.order.gOff.val) (chanG c)
  let m := memWrite m (base + p.order.bOff.val) (chanB c)
  match p.layout with
  | .rgb => m
  | .rgbw => memWrite m (base + p.order.wOff.val) (chanW c)

/-- `PixRead(i)` (R131). -/
def pixRead (p : Params) (m : Memory) (i : Nat) : Color :=
  let base := i * p.stride
  let w := match p.layout with
    | .rgb => 0
    | .rgbw => memRead m (base + p.order.wOff.val)
  packColor w (memRead m (base + p.order.rOff.val)) (memRead m (base + p.order.gOff.val))
    (memRead m (base + p.order.bOff.val))

/-- `for i in lo .. lo+n-1: PixWrite(i, colorOf(i))`, in increasing order (R14). -/
def pixLoop (p : Params) (colorOf : Nat → Color) (lo : Nat) : Nat → Memory → Memory
  | 0, m => m
  | n + 1, m => pixLoop p colorOf (lo + 1) n (pixWrite p lo (colorOf lo) m)

/-- The Display snapshot: `buf[0], …, buf[BUFLEN-1]` (R43 (e), R180). -/
def snapshot (p : Params) (m : Memory) : List Byte := readBytes m 0 p.bufLen

/-! ### Writing one piece of state -/

/-- `RESULT <- v` (R24). -/
def setResult (v : BitVec 32) (s : State) : State := { s with result := v }

/-- A new buffer. -/
def setMem (m : Memory) (s : State) : State := { s with mem := m }

/-- A new phase (R27). -/
def setPhase (ph : Phase) (s : State) : State := { s with phase := ph }

/-- Append to the event history (R182). -/
def record (e : Event) (s : State) : State := { s with events := s.events ++ [e] }

/-- The command port without its first word, which is being accepted (R60). -/
def setCmds (ws : List CmdWord) (s : State) : State := { s with cmds := ws }

/-- The schedule of the input lines. -/
def setInputs (ls : List Lines) (s : State) : State := { s with inputs := ls }

/-! ### Handshakes (R180, R181): the request stands while the phase waits for its acknowledgement -/

/-- `emit Display(buf)`: record the snapshot captured now (R180). -/
def emitDisplay (s : State) : State := record (.display (snapshot s.params s.mem)) s

/-- `emit Wait(ms)`: record it (R181). -/
def emitWait (ms : Half) (s : State) : State := record (.wait ms) s

/-- `DELAY` of a command in flight; SHOW has none, which acts as 0. -/
def Job.delay : Job → Half
  | .wipes _ d => d
  | .wiper _ d => d
  | .showBuf => 0

/-- The command in flight. -/
def Job.instr : Job → Instr
  | .wipes c d => .wipes c d
  | .wiper sh d => .wiper sh d
  | .showBuf => .showBuf

/-- `cmd` of R27, the accepted word (log 6). -/
def Job.cmd (j : Job) : CmdWord := encode j.instr

/-! ### Abnormal outcomes (R171, R172) -/

/-- `raise Illegal(cmd)`: `STATUS.ILLEGAL <- 1` and nothing else; the engine stays idle (R171). -/
def raiseIllegal (s : State) : State := { s with illegal := true }

/-- `fault OutOfRange(IDX)`: the run has no further meaning (R172). -/
def faultOutOfRange (idx : Half) : Outcome State Fault Refusal := .fault (.pixelIndexOutOfRange idx)

/-! ### Reset and construction (R190, R192) -/

/-- Reset of an instance (R32, R190, R191): the buffer is `INIT_BUFFER`, `RESULT` and `STATUS` 0, `IDLE`, an empty
history; the parameters stay. The words at the command port and the input lines are outside and stay (R191). -/
def resetEngine (s : State) : State :=
  { s with
    mem := writeBytes [] 0 s.params.init
    result := 0
    illegal := false
    phase := .idle
    events := [] }

/-- Construction of an instance: refused when the parameters break R6 or R136 (R192); else the state after reset,
before a surrounding of command words and input lines. -/
def construct (p : Params) (cmds : List CmdWord) (inputs : List Lines) : Outcome State Fault Refusal :=
  if p.legal then
    .next (resetEngine
      { params := p, mem := [], result := 0, illegal := false, phase := .idle, events := [],
        cmds := cmds, inputs := inputs })
  else .refused .illegalParameters

/-! ### Input ports (R60) -/

/-- The lines as this step samples them; with no schedule every line is low (log 2). -/
def currentLines (s : State) : Lines :=
  match s.inputs with
  | [] => .low
  | l :: _ => l

/-- The schedule after this step's sample: the last sample stays (log 2). -/
def laterInputs : List Lines → List Lines
  | _ :: l :: ls => l :: ls
  | ls => ls

/-- One sample of the lines is taken. -/
def takeSample (s : State) : State := setInputs (laterInputs s.inputs) s

/-- The lines with `rst` low in the sample the next step takes. -/
def releaseReset : List Lines → List Lines
  | [] => []
  | l :: ls => { l with rst := false } :: ls

/-- The state in which the next step accepts the word `w`: idle, `w` first at the command port, `rst` low (log 1). -/
def offerNext (w : CmdWord) (s : State) : State :=
  { s with phase := .idle, cmds := w :: s.cmds, inputs := releaseReset s.inputs }

end Sys2Proof.Machine
end

