-- ==== Sys2Proof/Machine/Codec.lean ====
section
/-! DEFINITION. color_pack_unpack: PACK, GETW, GETR, GETG, GETB (spec/40_color_codec.md). None reads the buffer or the layout (R106). -/
namespace Sys2Proof.Machine

open Host (Outcome)

/-- PACK, R100. -/
def execPack (w r g b : Byte) (s : State) : Outcome State Fault Refusal :=
  .next (setResult (packColor w r g b) s)

/-- GETW, R101. -/
def execGetw (c : Color) (s : State) : Outcome State Fault Refusal :=
  .next (setResult (zextChannel (chanW c)) s)

/-- GETR, R102. -/
def execGetr (c : Color) (s : State) : Outcome State Fault Refusal :=
  .next (setResult (zextChannel (chanR c)) s)

/-- GETG, R103. -/
def execGetg (c : Color) (s : State) : Outcome State Fault Refusal :=
  .next (setResult (zextChannel (chanG c)) s)

/-- GETB, R104. -/
def execGetb (c : Color) (s : State) : Outcome State Fault Refusal :=
  .next (setResult (zextChannel (chanB c)) s)

end Sys2Proof.Machine
end

