-- ==== Sys2Proof/Machine/HueLut.lean ====
section
/-! DEFINITION. hue_lut: HUE (spec/42_hue_lut.md). -/
namespace Sys2Proof.Machine

open Host (Outcome)

/-- The channels red, green, blue of `Hue` at the inverted position `q = 255 - p` (R121): bands A, B, C. -/
def hueBands (q : Nat) : Nat × Nat × Nat :=
  if q < 85 then (255 - 3 * q, 0, 3 * q)
  else if q < 170 then (0, 3 * (q - 85), 255 - 3 * (q - 85))
  else (3 * (q - 170), 255 - 3 * (q - 170), 0)

/-- `Hue(p)` of R121; the white channel is 0. -/
def hueColor (p : Byte) : Color :=
  let rgb := hueBands (255 - p.toNat)
  packColor 0 (BitVec.ofNat 8 rgb.1) (BitVec.ofNat 8 rgb.2.1) (BitVec.ofNat 8 rgb.2.2)

/-- HUE, R120. -/
def execHue (p : Byte) (s : State) : Outcome State Fault Refusal :=
  .next (setResult (hueColor p) s)

end Sys2Proof.Machine
end

