-- ==== Sys2Proof/Machine/Pixel.lean ====
section
/-! DEFINITION. channel_multiplexer: SETPIX, GETPIX (spec/43_channel_multiplexer.md). -/
namespace Sys2Proof.Machine

open Host (Outcome)

/-- SETPIX, R132; an index at or above `NPIX` is the undefined case of R172. -/
def execSetpix (idx : Half) (c : Color) (s : State) : Outcome State Fault Refusal :=
  if s.params.npix ≤ idx.toNat then faultOutOfRange idx
  else .next (setMem (pixWrite s.params idx.toNat c s.mem) s)

/-- GETPIX, R133; an index at or above `NPIX` is the undefined case of R172. -/
def execGetpix (idx : Half) (s : State) : Outcome State Fault Refusal :=
  if s.params.npix ≤ idx.toNat then faultOutOfRange idx
  else .next (setResult (pixRead s.params s.mem idx.toNat) s)

end Sys2Proof.Machine
end

