-- ==== Sys2Proof/Machine/Scaler.lean ====
section
/-! DEFINITION. brightness_scaler: SCALE (spec/41_brightness_scaler.md). -/
namespace Sys2Proof.Machine

open Host (Outcome)

/-- `S(x, f) = floor(x * (f + 1) / 256)`, exact (R111). The result is at most 255, so narrowing drops nothing. -/
def scaleChannel (f x : Byte) : Byte := BitVec.ofNat 8 (x.toNat * (f.toNat + 1) / 256)

/-- The color with all four channels scaled, W included (R110). -/
def scaleColor (c : Color) (f : Byte) : Color := mapChannels (scaleChannel f) c

/-- SCALE, R110. -/
def execScale (c : Color) (f : Byte) (s : State) : Outcome State Fault Refusal :=
  .next (setResult (scaleColor c f) s)

end Sys2Proof.Machine
end

