-- ==== Sys2Proof/Machine/Scroll.lean ====
section
/-! DEFINITION. circular_shift_barrel: SCRLF, SCRLB (spec/45_scroll.md). -/
namespace Sys2Proof.Machine

open Host (Outcome)

/-- `ReducedAmount()` (R150). -/
def reducedAmount (npix : Nat) (amount : Half) : Nat :=
  if npix = 0 then 0 else amount.toNat % npix

/-- The buffer after a forward scroll by `a` pixels (R151): one block move, then the fill of the leading pixels. -/
def scrolledForward (p : Params) (a : Nat) (fill : Color) (m : Memory) : Memory :=
  pixLoop p (fun _ => fill) 0 a (moveBytes m (a * p.stride) 0 ((p.npix - a) * p.stride))

/-- The buffer after a backward scroll by `a` pixels (R152): one block move, then the fill of the trailing pixels. -/
def scrolledBackward (p : Params) (a : Nat) (fill : Color) (m : Memory) : Memory :=
  pixLoop p (fun _ => fill) (p.npix - a) a (moveBytes m 0 (a * p.stride) ((p.npix - a) * p.stride))

/-- SCRLF, R151. -/
def execScrlf (amount : Half) (fill : Color) (s : State) : Outcome State Fault Refusal :=
  let a := reducedAmount s.params.npix amount
  if a = 0 then .next s else .next (setMem (scrolledForward s.params a fill s.mem) s)

/-- SCRLB, R152. -/
def execScrlb (amount : Half) (fill : Color) (s : State) : Outcome State Fault Refusal :=
  let a := reducedAmount s.params.npix amount
  if a = 0 then .next s else .next (setMem (scrolledBackward s.params a fill s.mem) s)

end Sys2Proof.Machine
end

