-- ==== Sys2Proof/Machine/Wipes.lean ====
section
/-! DEFINITION. Buffer wipes: WIPES, WIPER, and the stages of a command in flight (spec/44_wipes.md, spec/10_state.md R27). -/
namespace Sys2Proof.Machine

open Host (Outcome)

/-- `RainbowPos(i) = (SHIFT + (i * 256) / NPIX) mod 256`, exact (R142, R143). -/
def rainbowPos (npix : Nat) (shift : Byte) (i : Nat) : Byte :=
  BitVec.ofNat 8 ((shift.toNat + i * 256 / npix) % 256)

/-- `colorOf` of WIPER: `Hue(RainbowPos(i))` (R142). -/
def rainbowColor (npix : Nat) (shift : Byte) (i : Nat) : Color := hueColor (rainbowPos npix shift i)

/-- Issue the last Display of a command and hold until `disp_ack` (R140, R160). -/
def finalDisplay (job : Job) (i : Nat) (s : State) : State :=
  setPhase (.run job i .awaitFinalDisplay) (emitDisplay s)

/-- Stage WRITE of an animated wipe at index `i` (R140): while the loop has an index left, write its pixel, issue
the Display and hold, with `i + 1` the next index; else the command is complete. -/
def wipePixel (job : Job) (colorOf : Nat → Color) (i : Nat) (s : State) : State :=
  if i < s.params.npix then
    setPhase (.run job (i + 1) .awaitDisplay)
      (emitDisplay (setMem (pixWrite s.params i (colorOf i) s.mem) s))
  else setPhase .idle s

/-- `WipeSequence(colorOf, d)` from the acceptance of the command to its first hold (R140). -/
def wipeSequence (job : Job) (colorOf : Nat → Color) (s : State) : State :=
  if s.params.npix = 0 then s
  else if job.delay = 0 then
    finalDisplay job s.params.npix (setMem (pixLoop s.params colorOf 0 s.params.npix s.mem) s)
  else wipePixel job colorOf 0 s

/-- WIPES, R140. -/
def execWipes (c : Color) (d : Half) (s : State) : Outcome State Fault Refusal :=
  .next (wipeSequence (.wipes c d) (fun _ => c) s)

/-- WIPER, R142. -/
def execWiper (shift : Byte) (d : Half) (s : State) : Outcome State Fault Refusal :=
  .next (wipeSequence (.wiper shift d) (rainbowColor s.params.npix shift) s)

/-- Stage WRITE of a command in flight. SHOW has no pixel to write and only displays. -/
def writeStage (job : Job) (i : Nat) (s : State) : State :=
  match job with
  | .wipes c _ => wipePixel job (fun _ => c) i s
  | .wiper shift _ => wipePixel job (rainbowColor s.params.npix shift) i s
  | .showBuf => finalDisplay job i s

/-- The Display of an iteration is acknowledged: with a delay, issue the Wait and hold (R140, R181); a command with
no delay has no Wait, so its Display was its last effect. -/
def displayDone (job : Job) (i : Nat) (s : State) : State :=
  if job.delay = 0 then setPhase .idle s
  else setPhase (.run job i .awaitWait) (emitWait job.delay s)

/-- One step of a command in flight: hold until the acknowledgement the stage waits for, and ignore the other (R27,
R140, R180, R181, R183). -/
def stageStep (job : Job) (i : Nat) (stage : Stage) (l : Lines) (s : State) : State :=
  match stage with
  | .write => writeStage job i s
  | .awaitDisplay => if l.dispAck then displayDone job i s else s
  | .awaitWait => if l.waitAck then writeStage job i s else s
  | .awaitFinalDisplay => if l.dispAck then setPhase .idle s else s

end Sys2Proof.Machine
end

