-- ==== Sys2Proof/Machine/System.lean ====
section
/-! DEFINITION. System commands: SHOW, NOP (spec/46_system.md). -/
namespace Sys2Proof.Machine

open Host (Outcome)

/-- NOP, R161. -/
def execNop (s : State) : Outcome State Fault Refusal := .next s

/-- SHOW, R160: display the buffer and hold until `disp_ack`, with an empty snapshot when `NPIX = 0`. -/
def execShow (s : State) : Outcome State Fault Refusal := .next (finalDisplay .showBuf 0 s)

end Sys2Proof.Machine
end

