-- ==== Sys2Proof/Machine/Dispatch.lean ====
section
/-! DEFINITION. One arm per constructor of `Instr`, each a direct call of its meaning. -/
namespace Sys2Proof.Machine

def exec (i : Instr) (s : State) : Host.Outcome State Fault Refusal :=
  match i with
  | .nop => Sys2Proof.Machine.execNop s
  | .pack w r g b => Sys2Proof.Machine.execPack w r g b s
  | .getw c => Sys2Proof.Machine.execGetw c s
  | .getr c => Sys2Proof.Machine.execGetr c s
  | .getg c => Sys2Proof.Machine.execGetg c s
  | .getb c => Sys2Proof.Machine.execGetb c s
  | .scale c f => Sys2Proof.Machine.execScale c f s
  | .hue p => Sys2Proof.Machine.execHue p s
  | .setpix n c => Sys2Proof.Machine.execSetpix n c s
  | .getpix n => Sys2Proof.Machine.execGetpix n s
  | .wipes c d => Sys2Proof.Machine.execWipes c d s
  | .wiper sh d => Sys2Proof.Machine.execWiper sh d s
  | .scrlf n c => Sys2Proof.Machine.execScrlf n c s
  | .scrlb n c => Sys2Proof.Machine.execScrlb n c s
  | .showBuf => Sys2Proof.Machine.execShow s

end Sys2Proof.Machine
end

