-- ==== Sys2Proof/Machine/Flags.lean ====
section
/-! DEFINITION. The host-readable registers STATUS, CONFIG and RESULT (spec/10_state.md R24 to R28), the output ports (spec/30_encoding.md R60) and the outcome codes (spec/60_exceptions.md R173). The block has no condition flags (R23). -/
namespace Sys2Proof.Machine

/-- `STATUS.BUSY`: 1 exactly when `phase ≠ IDLE` (R25, R27). -/
def busy (s : State) : Bool :=
  match s.phase with
  | .idle => false
  | .run _ _ _ => true

/-- `STATUS`: `BUSY` in bit 0, `ILLEGAL` in bit 1, the rest 0 (R25). -/
def statusWord (s : State) : BitVec 32 := BitVec.ofNat 32 ((busy s).toNat + 2 * s.illegal.toNat)

/-- Encoding of `LAYOUT`: 0 for `RGB`, 1 for `RGBW` (R6). -/
def layoutCode : Layout → Nat
  | .rgb => 0
  | .rgbw => 1

/-- The `W_OFF` field of `CONFIG`: 3 for `RGB` (R26). -/
def configWOff (p : Params) : Nat :=
  match p.layout with
  | .rgb => 3
  | .rgbw => p.order.wOff.val

/-- `CONFIG` (R26): `PIXEL_COUNT` in 15:0, `LAYOUT` in 16, `STRIDE` in 22:20, `R_OFF` in 25:24, `G_OFF` in 27:26,
`B_OFF` in 29:28, `W_OFF` in 31:30, the rest 0. -/
def configWord (p : Params) : BitVec 32 :=
  BitVec.ofNat 32
    (p.npix % 2 ^ 16 + layoutCode p.layout * 2 ^ 16 + p.stride * 2 ^ 20 + p.order.rOff.val * 2 ^ 24 +
      p.order.gOff.val * 2 ^ 26 + p.order.bOff.val * 2 ^ 28 + configWOff p * 2 ^ 30)

/-- `rd_data` for `rd_sel`: 0 `RESULT`, 1 `STATUS`, 2 `CONFIG`, 3 reads 0; no side effect (R28). -/
def hostRead (s : State) (sel : BitVec 2) : BitVec 32 :=
  if sel = 0 then s.result
  else if sel = 1 then statusWord s
  else if sel = 2 then configWord s.params
  else 0

/-- `cmd_ready` equals `NOT STATUS.BUSY` (R60). -/
def cmdReady (s : State) : Bool := !busy s

/-- `disp_req` with `disp_snap`: a request stands while a stage waits for `disp_ack` (R180). The engine writes
nothing meanwhile, so the snapshot is the buffer. -/
def displayRequest (s : State) : Option (List Byte) :=
  match s.phase with
  | .run _ _ .awaitDisplay => some (snapshot s.params s.mem)
  | .run _ _ .awaitFinalDisplay => some (snapshot s.params s.mem)
  | _ => none

/-- `wait_req` with `wait_ms`: a request stands while the stage waits for `wait_ack` (R181). -/
def waitRequest (s : State) : Option Half :=
  match s.phase with
  | .run job _ .awaitWait => some job.delay
  | _ => none

/-- Code 1 of R173, `IllegalCommand`; the rejection is a next state, so no fault carries it. -/
def illegalCommandCode : Nat := 1

/-- The code of a fault in R173. -/
def faultCode : Fault → Nat
  | .pixelIndexOutOfRange _ => 2

end Sys2Proof.Machine
end

