-- ==== Sys2Proof/Machine/Step.lean ====
section
/-! DEFINITION. One step of the engine (spec/00_scope.md R16): reset first, then the command in flight, then the acceptance of a command (spec/60_exceptions.md R174, spec/30_encoding.md R60, R66). -/
namespace Sys2Proof.Machine

/-- One step. It takes a sample of the input lines; `rst` takes precedence over everything (R174, R190); a command
in flight goes on or holds (R27); an idle engine accepts the word at the command port, decodes it and executes or
rejects it (R60, R66, R171); an idle engine with no word offered stays idle (R183). -/
def step (s : State) : Host.Outcome State Fault Refusal :=
  let l := currentLines s
  let s := takeSample s
  if l.rst then .next (resetEngine s)
  else match s.phase with
    | .run job i stage => .next (stageStep job i stage l s)
    | .idle =>
      match s.cmds with
      | [] => .next s
      | w :: ws =>
        match decodeWord w with
        | .ok i => exec i (setCmds ws s)
        | .error _ => .next (raiseIllegal (setCmds ws s))

/-- The state whose next step accepts and runs the command word `w`, numbered as spec/opcode_table.json numbers it:
idle, `w` first at the command port, `rst` not asserted (log 1). The word is the whole instruction, so `nbits` adds nothing. -/
def State.withFetchWord (s : State) (_nbits w : Nat) : State := offerNext (BitVec.ofNat 64 w) s

end Sys2Proof.Machine
end

