-- ==== Sys2Proof/Machine/Assembler.lean ====
section
/-! DEFINITION. The assembler of spec/30_encoding.md: the text of a line (R69), its operands and their widths (R69), the pseudo-instructions (R70). -/
namespace Sys2Proof.Machine

/-- The names a line may start with: the mnemonics of R69 and the pseudo-instructions of R70 that have a name of their own. -/
inductive AsmName where
  | op (o : Op)
  | rgb
  | clear
deriving DecidableEq, Repr

/-- Why a line is no command. -/
inductive AsmError where
  /-- Raised by the line reader: no such mnemonic (R69). Safe. -/
  | unknownMnemonic
  /-- Raised by the line reader: an operand is no decimal or `0x` hexadecimal number (R69). Safe. -/
  | badNumber
  /-- Raised by `assemble`: the wrong number of operands (R69, R70). Safe. -/
  | wrongOperandCount
  /-- Raised by `assemble`: "An operand that does not fit its field is an assembly error, not truncated" (R69). Safe. -/
  | operandTooWide
deriving DecidableEq, Repr

/-- An operand in its field, if it fits (R69). -/
def asmField (w n : Nat) : Except AsmError (BitVec w) :=
  if n < 2 ^ w then .ok (BitVec.ofNat w n) else .error .operandTooWide

/-- A command of one operand. -/
def asmOne {w : Nat} (mk : BitVec w → Instr) (n : Nat) : Except AsmError Instr :=
  match asmField w n with
  | .ok v => .ok (mk v)
  | .error e => .error e

/-- A command of two operands. -/
def asmTwo {w v : Nat} (mk : BitVec w → BitVec v → Instr) (n m : Nat) : Except AsmError Instr :=
  match asmField w n, asmField v m with
  | .ok a, .ok b => .ok (mk a b)
  | _, _ => .error .operandTooWide

/-- `pack` of four operands. -/
def asmPack (w r g b : Nat) : Except AsmError Instr :=
  match asmField 8 w, asmField 8 r, asmField 8 g, asmField 8 b with
  | .ok w, .ok r, .ok g, .ok b => .ok (.pack w r g b)
  | _, _, _, _ => .error .operandTooWide

/-- The command of a mnemonic and its operands in the order of R69, with the expansions of R70: `scrlf amount` and
`scrlb amount` fill with 0, `rgb` is `pack` with white 0, `wipes color` and `wiper shift` have delay 0, `clear` is `wipes 0, 0`. -/
def assemble : AsmName → List Nat → Except AsmError Instr
  | .op .nop, [] => .ok .nop
  | .op .pack, [w, r, g, b] => asmPack w r g b
  | .rgb, [r, g, b] => asmPack 0 r g b
  | .op .getw, [c] => asmOne .getw c
  | .op .getr, [c] => asmOne .getr c
  | .op .getg, [c] => asmOne .getg c
  | .op .getb, [c] => asmOne .getb c
  | .op .scale, [c, f] => asmTwo .scale c f
  | .op .hue, [p] => asmOne .hue p
  | .op .setpix, [n, c] => asmTwo .setpix n c
  | .op .getpix, [n] => asmOne .getpix n
  | .op .wipes, [c, d] => asmTwo .wipes c d
  | .op .wipes, [c] => asmTwo .wipes c 0
  | .clear, [] => .ok (.wipes 0 0)
  | .op .wiper, [s, d] => asmTwo .wiper s d
  | .op .wiper, [s] => asmTwo .wiper s 0
  | .op .scrlf, [n, c] => asmTwo .scrlf n c
  | .op .scrlf, [n] => asmTwo .scrlf n 0
  | .op .scrlb, [n, c] => asmTwo .scrlb n c
  | .op .scrlb, [n] => asmTwo .scrlb n 0
  | .op .showBuf, [] => .ok .showBuf
  | _, _ => .error .wrongOperandCount

/-- The spelling of each name, in lower case (R69, R70). -/
def asmNames : List (List Char × AsmName) :=
  [(['n', 'o', 'p'], .op .nop), (['p', 'a', 'c', 'k'], .op .pack),
   (['g', 'e', 't', 'w'], .op .getw), (['g', 'e', 't', 'r'], .op .getr),
   (['g', 'e', 't', 'g'], .op .getg), (['g', 'e', 't', 'b'], .op .getb),
   (['s', 'c', 'a', 'l', 'e'], .op .scale), (['h', 'u', 'e'], .op .hue),
   (['s', 'e', 't', 'p', 'i', 'x'], .op .setpix), (['g', 'e', 't', 'p', 'i', 'x'], .op .getpix),
   (['w', 'i', 'p', 'e', 's'], .op .wipes), (['w', 'i', 'p', 'e', 'r'], .op .wiper),
   (['s', 'c', 'r', 'l', 'f'], .op .scrlf), (['s', 'c', 'r', 'l', 'b'], .op .scrlb),
   (['s', 'h', 'o', 'w'], .op .showBuf), (['r', 'g', 'b'], .rgb), (['c', 'l', 'e', 'a', 'r'], .clear)]

/-- Mnemonics are case-insensitive (R69). -/
def asmLower (c : Char) : Char :=
  if 65 ≤ c.toNat ∧ c.toNat ≤ 90 then Char.ofNat (c.toNat + 32) else c

/-- The value of a digit, in decimal or hexadecimal. -/
def asmDigit (c : Char) : Nat :=
  let n := (asmLower c).toNat
  if 48 ≤ n ∧ n ≤ 57 then n - 48 else if 97 ≤ n ∧ n ≤ 102 then n - 87 else 16

/-- The number of a nonempty run of digits in a base. -/
def asmDigits (base acc : Nat) : List Char → Except AsmError Nat
  | [] => .ok acc
  | c :: cs => if asmDigit c < base then asmDigits base (acc * base + asmDigit c) cs else .error .badNumber

/-- An operand: an unsigned number in decimal or `0x` hexadecimal (R69). -/
def asmNumber : List Char → Except AsmError Nat
  | [] => .error .badNumber
  | ['0', 'x'] => .error .badNumber
  | '0' :: 'x' :: cs => asmDigits 16 0 cs
  | cs => asmDigits 10 0 cs

/-- A blank or a tab. -/
def asmBlank (c : Char) : Bool := c == ' ' || c == '\t'

/-- The text without the blanks at its two ends. -/
def asmTrim (cs : List Char) : List Char :=
  (((cs.dropWhile asmBlank).reverse).dropWhile asmBlank).reverse

/-- The text between commas. -/
def asmSplit : List Char → List (List Char)
  | [] => [[]]
  | ',' :: cs => [] :: asmSplit cs
  | c :: cs =>
    match asmSplit cs with
    | [] => [[c]]
    | t :: ts => (c :: t) :: ts

/-- The numbers of a list of operands. -/
def asmNumbers : List (List Char) → Except AsmError (List Nat)
  | [] => .ok []
  | t :: ts =>
    match asmNumber (asmTrim t), asmNumbers ts with
    | .ok n, .ok ns => .ok (n :: ns)
    | _, _ => .error .badNumber

/-- One line: `mnemonic operand, operand, …`, with `;` a comment to the end of the line; an empty line is no
command (R69). -/
def assembleLine (line : List Char) : Except AsmError (Option Instr) :=
  let code := asmTrim (line.takeWhile (· != ';'))
  if code = [] then .ok none
  else
    let name := (code.takeWhile (fun c => !asmBlank c)).map asmLower
    let rest := asmTrim (code.dropWhile (fun c => !asmBlank c))
    match asmNames.lookup name with
    | none => .error .unknownMnemonic
    | some n =>
      match asmNumbers (if rest = [] then [] else asmSplit rest) with
      | .error e => .error e
      | .ok ns =>
        match assemble n ns with
        | .ok i => .ok (some i)
        | .error e => .error e

end Sys2Proof.Machine
end

