-- ==== Sys2Proof/Safety.lean ====
section
/-! DEFINITION. The terms the statements use: what a command leaves unchanged, the invariant of the engine, and the runs of an animated wipe. -/
namespace Sys2Proof.Machine

/-! ### Frames -/

/-- Every byte of the buffer reads as before. -/
def BufferKept (s t : State) : Prop := ∀ a, memRead t.mem a = memRead s.mem a

/-- Every byte outside `n` bytes from address `lo` reads as before. -/
def BufferKeptOutside (lo n : Nat) (s t : State) : Prop :=
  ∀ a, ¬ (lo ≤ a ∧ a < lo + n) → memRead t.mem a = memRead s.mem a

/-- The construction parameters, and so `CONFIG`, are as before (R21). -/
def ParamsKept (s t : State) : Prop := t.params = s.params

/-- `RESULT` is as before. -/
def ResultKept (s t : State) : Prop := t.result = s.result

/-- `STATUS` is as before: `ILLEGAL`, and the phase that `BUSY` stands for (R25, R27). -/
def StatusKept (s t : State) : Prop := t.illegal = s.illegal ∧ t.phase = s.phase

/-- No event is emitted. -/
def NoEvent (s t : State) : Prop := t.events = s.events

/-- The words at the command port and the schedule of the input lines are as before. -/
def InputsKept (s t : State) : Prop := t.cmds = s.cmds ∧ t.inputs = s.inputs

/-- Nothing but `RESULT` changes: the frame of the commands that write it (R24). -/
def OnlyResult (s t : State) : Prop :=
  BufferKept s t ∧ ParamsKept s t ∧ StatusKept s t ∧ NoEvent s t ∧ InputsKept s t

/-- Nothing but the buffer changes: the frame of SETPIX and the scrolls. -/
def OnlyBuffer (s t : State) : Prop :=
  ParamsKept s t ∧ ResultKept s t ∧ StatusKept s t ∧ NoEvent s t ∧ InputsKept s t

/-- Nothing but the buffer, the phase and the event history changes: the frame of the wipes and SHOW. -/
def OnlyDisplays (s t : State) : Prop :=
  ParamsKept s t ∧ ResultKept s t ∧ t.illegal = s.illegal ∧ InputsKept s t

/-! ### What a pixel holds -/

/-- The `STRIDE` bytes of pixel `i` hold the channels of `c`, each at its offset (R130). -/
def PixelHolds (p : Params) (m : Memory) (i : Nat) (c : Color) : Prop :=
  memRead m (i * p.stride + p.order.rOff.val) = chanR c ∧
  memRead m (i * p.stride + p.order.gOff.val) = chanG c ∧
  memRead m (i * p.stride + p.order.bOff.val) = chanB c ∧
  (p.layout = .rgbw → memRead m (i * p.stride + p.order.wOff.val) = chanW c)

/-- Pixel `i` of `m` is byte for byte pixel `j` of `m'`. -/
def PixelSame (p : Params) (m : Memory) (i : Nat) (m' : Memory) (j : Nat) : Prop :=
  ∀ k, k < p.stride → memRead m (i * p.stride + k) = memRead m' (j * p.stride + k)

/-- The color an instance gives back for a stored `c`: white is 0 in `RGB` (R131). -/
def storedColor (p : Params) (c : Color) : Color :=
  match p.layout with
  | .rgb => c &&& 0x00FFFFFF#32
  | .rgbw => c

/-! ### The invariant -/

/-- Every listed address exists: it is below `BUFLEN` (R21, R40, R48). -/
def BufferBounded (s : State) : Prop := ∀ c ∈ s.mem, c.1 < s.params.bufLen

/-- The phases of this model, within R27 and R140: SHOW and an instant wipe wait for their last Display, at index 0 and
`NPIX` (DESIGN CHOICE, log 8); an animated wipe is at an index within `0 .. NPIX`, past the pixel it wrote last (DEDUCED,
log 7). -/
def PhaseOk (npix : Nat) : Phase → Prop
  | .idle => True
  | .run .showBuf i stage => i = 0 ∧ stage = .awaitFinalDisplay
  | .run job i stage =>
    0 < npix ∧ i ≤ npix ∧
    match stage with
    | .awaitFinalDisplay => job.delay = 0 ∧ i = npix
    | .write => job.delay ≠ 0 ∧ i < npix
    | .awaitDisplay => job.delay ≠ 0 ∧ 0 < i
    | .awaitWait => job.delay ≠ 0 ∧ 0 < i

/-- A Display carries `BUFLEN` bytes, and no Wait is of 0 ms (R180, R181). -/
def EventOk (p : Params) : Event → Prop
  | .display snap => snap.length = p.bufLen
  | .wait ms => ms ≠ 0

/-- While a Display is outstanding, the last event is that Display, and its snapshot is the buffer as it stands
(R180, R198). -/
def FrameShown (s : State) : Prop :=
  ∀ snap, displayRequest s = some snap → s.events.getLast? = some (.display snap)

/-- While a Wait is outstanding, the last event is that Wait (R181). -/
def WaitShown (s : State) : Prop :=
  ∀ ms, waitRequest s = some ms → s.events.getLast? = some (.wait ms)

/-- What every step keeps, from legal parameters. -/
structure Inv (s : State) : Prop where
  legal   : s.params.legal = true
  memWf   : s.mem.wf
  bounded : BufferBounded s
  phaseOk : PhaseOk s.params.npix s.phase
  events  : ∀ e ∈ s.events, EventOk s.params e
  shown   : FrameShown s
  waiting : WaitShown s

/-! ### Runs -/

/-- The collaborators of this state acknowledge at once, and `rst` stays low. -/
def PromptLines (s : State) : Prop := s.inputs = [Lines.prompt]

/-- The buffer after the first `k` pixels of a wipe (R141). -/
def wipedTo (p : Params) (colorOf : Nat → Color) (m : Memory) (k : Nat) : Memory := pixLoop p colorOf 0 k m

/-- The events of pixels `k .. k+n-1` of an animated wipe: for each, the Display of the buffer with that pixel
written, then the Wait (R141). -/
def wipeEvents (p : Params) (colorOf : Nat → Color) (d : Half) (m : Memory) (k : Nat) : Nat → List Event
  | 0 => []
  | n + 1 =>
    .display (snapshot p (wipedTo p colorOf m (k + 1))) :: .wait d :: wipeEvents p colorOf d m (k + 1) n

end Sys2Proof.Machine
end

