-- ==== Sys2Proof/Certificates/Slice0/Obligations.lean ====
section
/-! DEFINITION. The statements for the provers, one `def Obligations.<Name> : Prop` each, in the order of OBLIGATIONS.json. -/

open Sys2Proof Sys2Proof.Machine

/-! ### Encoding (spec/30_encoding.md) -/

/-- The decoder reads back every command the encoder writes, with every operand at every value. -/
def Obligations.DecodeOfEncodeIsTheCommand : Prop :=
  ∀ i : Instr, decodeWord (encode i) = .ok i

/-- A word that decodes is the word of its command, bit for bit: no two words name one command. -/
def Obligations.EncodeOfDecodeIsTheWord : Prop :=
  ∀ (w : CmdWord) (i : Instr), decodeWord w = .ok i → encode i = w

/-- R66, R67: a word decodes exactly when a row of spec/opcode_table.json matches it, and it is then that row's
command; the opcodes of no row are the ranges R67 (a) lists. -/
def Obligations.DecoderAcceptsExactlyTheTableRows : Prop :=
  ∀ w : CmdWord,
    ((∃ i, decodeWord w = .ok i) ↔ legalWord w = true) ∧
    (∀ i, decodeWord w = .ok i → ∃ r ∈ opcodeTable, r.hits w = true ∧ r.op = i.op) ∧
    (decodeWord w = .error .unassignedOpcode ↔
      let opc := (w.extractLsb' 56 8).toNat
      (0x08 ≤ opc ∧ opc ≤ 0x0F) ∨ (0x12 ≤ opc ∧ opc ≤ 0x1F) ∨ (0x22 ≤ opc ∧ opc ≤ 0x2F) ∨
        (0x32 ≤ opc ∧ opc ≤ 0x3F) ∨ (0x41 ≤ opc ∧ opc ≤ 0xFF))

/-- No two rows of the opcode table match one word: each word is at most one command (R66). -/
def Obligations.TableRowsDoNotOverlap : Prop :=
  ∀ (w : CmdWord) (r r' : TableRow), r ∈ opcodeTable → r' ∈ opcodeTable → r.hits w = true → r'.hits w = true → r = r'

/-- R71: the worked encodings, from the assembly operands to the word, and back through the decoder. -/
def Obligations.WorkedEncodings : Prop :=
  ∀ (n : AsmName) (ops : List Nat) (w : CmdWord),
    (n, ops, w) ∈
      [(AsmName.op .pack, [0x10, 0x20, 0x30, 0x40], 0x0100000010203040#64),
       (AsmName.op .scale, [0x80402010, 127], 0x0600007F80402010#64),
       (AsmName.op .hue, [85], 0x0700000000000055#64),
       (AsmName.op .setpix, [2, 0x00FF0000], 0x1000000200FF0000#64),
       (AsmName.op .getpix, [0x0102], 0x1100010200000000#64),
       (AsmName.op .wipes, [0x000000FF, 20], 0x20000014000000FF#64),
       (AsmName.op .wiper, [64, 0], 0x2100000000000040#64),
       (AsmName.op .scrlf, [1], 0x3000000100000000#64),
       (AsmName.op .scrlb, [3, 0x00010203], 0x3100000300010203#64),
       (AsmName.op .showBuf, [], 0x4000000000000000#64),
       (AsmName.op .nop, [], 0x0000000000000000#64)] →
    ∃ i, assemble n ops = .ok i ∧ encode i = w ∧ decodeWord w = .ok i

/-- R70: the pseudo-instructions and their expansions. -/
def Obligations.PseudoInstructionsExpand : Prop :=
  (∀ a, assemble (.op .scrlf) [a] = assemble (.op .scrlf) [a, 0]) ∧
  (∀ a, assemble (.op .scrlb) [a] = assemble (.op .scrlb) [a, 0]) ∧
  (∀ r g b, assemble .rgb [r, g, b] = assemble (.op .pack) [0, r, g, b]) ∧
  (∀ c, assemble (.op .wipes) [c] = assemble (.op .wipes) [c, 0]) ∧
  (∀ s, assemble (.op .wiper) [s] = assemble (.op .wiper) [s, 0]) ∧
  assemble .clear [] = assemble (.op .wipes) [0, 0]

/-- R69: an operand that does not fit its field is an assembly error, not truncated; operands that fit are the
fields' values. -/
def Obligations.AssemblerNeverTruncates : Prop :=
  (∀ n c : Nat,
    (n < 2 ^ 16 ∧ c < 2 ^ 32 → ∃ a f, a.toNat = n ∧ f.toNat = c ∧
      assemble (.op .setpix) [n, c] = .ok (.setpix a f) ∧ assemble (.op .wipes) [c, n] = .ok (.wipes f a) ∧
      assemble (.op .scrlf) [n, c] = .ok (.scrlf a f) ∧ assemble (.op .scrlb) [n, c] = .ok (.scrlb a f)) ∧
    (¬ (n < 2 ^ 16 ∧ c < 2 ^ 32) →
      assemble (.op .setpix) [n, c] = .error .operandTooWide ∧ assemble (.op .wipes) [c, n] = .error .operandTooWide ∧
      assemble (.op .scrlf) [n, c] = .error .operandTooWide ∧ assemble (.op .scrlb) [n, c] = .error .operandTooWide)) ∧
  (∀ c f : Nat,
    (c < 2 ^ 32 ∧ f < 2 ^ 8 → ∃ a b, a.toNat = c ∧ b.toNat = f ∧ assemble (.op .scale) [c, f] = .ok (.scale a b)) ∧
    (¬ (c < 2 ^ 32 ∧ f < 2 ^ 8) → assemble (.op .scale) [c, f] = .error .operandTooWide)) ∧
  (∀ s d : Nat,
    (s < 2 ^ 8 ∧ d < 2 ^ 16 → ∃ a b, a.toNat = s ∧ b.toNat = d ∧ assemble (.op .wiper) [s, d] = .ok (.wiper a b)) ∧
    (¬ (s < 2 ^ 8 ∧ d < 2 ^ 16) → assemble (.op .wiper) [s, d] = .error .operandTooWide)) ∧
  (∀ c : Nat,
    (c < 2 ^ 32 → ∃ a, a.toNat = c ∧ assemble (.op .getw) [c] = .ok (.getw a) ∧ assemble (.op .getr) [c] = .ok (.getr a) ∧
      assemble (.op .getg) [c] = .ok (.getg a) ∧ assemble (.op .getb) [c] = .ok (.getb a)) ∧
    (¬ c < 2 ^ 32 → assemble (.op .getw) [c] = .error .operandTooWide ∧ assemble (.op .getr) [c] = .error .operandTooWide ∧
      assemble (.op .getg) [c] = .error .operandTooWide ∧ assemble (.op .getb) [c] = .error .operandTooWide)) ∧
  (∀ n : Nat,
    (n < 2 ^ 16 → ∃ a, a.toNat = n ∧ assemble (.op .getpix) [n] = .ok (.getpix a)) ∧
    (¬ n < 2 ^ 16 → assemble (.op .getpix) [n] = .error .operandTooWide) ∧
    (n < 2 ^ 8 → ∃ a, a.toNat = n ∧ assemble (.op .hue) [n] = .ok (.hue a)) ∧
    (¬ n < 2 ^ 8 → assemble (.op .hue) [n] = .error .operandTooWide)) ∧
  (∀ w r g b : Nat,
    (w < 256 ∧ r < 256 ∧ g < 256 ∧ b < 256 → ∃ w' r' g' b', w'.toNat = w ∧ r'.toNat = r ∧ g'.toNat = g ∧ b'.toNat = b ∧
      assemble (.op .pack) [w, r, g, b] = .ok (.pack w' r' g' b')) ∧
    (¬ (w < 256 ∧ r < 256 ∧ g < 256 ∧ b < 256) → assemble (.op .pack) [w, r, g, b] = .error .operandTooWide))

/-! ### A step: acceptance, rejection, reset, handshakes -/

/-- R60, R66: with `rst` low and no command in flight, the step accepts the word at the command port; if it decodes,
the step is `exec` of the command on the state with the word taken and the lines sampled. -/
def Obligations.StepRunsTheDecodedCommand : Prop :=
  ∀ (s : State) (w : CmdWord) (ws : List CmdWord) (i : Instr),
    (currentLines s).rst = false → s.phase = .idle → s.cmds = w :: ws → decodeWord w = .ok i →
    step s = exec i { s with cmds := ws, inputs := laterInputs s.inputs }

/-- R171: an illegal word sets `STATUS.ILLEGAL` and changes nothing else; it is consumed, the engine stays idle and
ready, and no event is emitted. -/
def Obligations.IllegalWordIsRejected : Prop :=
  ∀ (s : State) (w : CmdWord) (ws : List CmdWord),
    (currentLines s).rst = false → s.phase = .idle → s.cmds = w :: ws → legalWord w = false →
    ∃ t, step s = .next t ∧ t.illegal = true ∧ BufferKept s t ∧ ParamsKept s t ∧ ResultKept s t ∧
      t.phase = .idle ∧ busy t = false ∧ cmdReady t = true ∧ NoEvent s t ∧ t.cmds = ws ∧
      t.inputs = laterInputs s.inputs

/-- R190, R191, R174: with `rst` asserted, whatever is in flight or offered, every piece of state takes its reset
value; requests are withdrawn, no word is accepted, and the parameters stay. -/
def Obligations.ResetTakesPrecedence : Prop :=
  ∀ s : State, s.params.legal = true → (currentLines s).rst = true →
    ∃ t, step s = .next t ∧ ParamsKept s t ∧ t.result = 0 ∧ statusWord t = 0 ∧ t.illegal = false ∧ t.phase = .idle ∧
      snapshot t.params t.mem = s.params.init ∧ (∀ a, s.params.bufLen ≤ a → memRead t.mem a = unlistedByte) ∧
      t.mem.wf ∧ t.events = [] ∧ displayRequest t = none ∧ waitRequest t = none ∧ cmdReady t = true ∧
      t.cmds = s.cmds ∧ t.inputs = laterInputs s.inputs

/-- R60, R195: while a command is in flight the engine accepts no command; the offered words wait, in order, and are
not lost. -/
def Obligations.BusyEngineAcceptsNoCommand : Prop :=
  ∀ s : State, busy s = true → cmdReady s = false ∧ ∃ t, step s = .next t ∧ t.cmds = s.cmds

/-- R180, R181, R145: until the acknowledgement its stage waits for, the engine holds: a step changes nothing but the
sample of the lines. -/
def Obligations.EngineHoldsUntilAcknowledged : Prop :=
  ∀ s : State, (currentLines s).rst = false →
    ((∃ snap, displayRequest s = some snap) ∧ (currentLines s).dispAck = false ∨
     (∃ ms, waitRequest s = some ms) ∧ (currentLines s).waitAck = false) →
    step s = .next { s with inputs := laterInputs s.inputs }

/-- R140, R160: the acknowledgement of a command's last Display completes the command and changes nothing else. -/
def Obligations.FinalDisplayAcknowledgementCompletes : Prop :=
  ∀ (s : State) (job : Job) (i : Nat),
    (currentLines s).rst = false → s.phase = .run job i .awaitFinalDisplay → (currentLines s).dispAck = true →
    ∃ t, step s = .next t ∧ t.phase = .idle ∧ BufferKept s t ∧ ParamsKept s t ∧ ResultKept s t ∧
      t.illegal = s.illegal ∧ NoEvent s t ∧ t.cmds = s.cmds ∧ t.inputs = laterInputs s.inputs

/-- R140, R181: the acknowledgement of an iteration's Display issues `Wait(DELAY)` and holds for it. That the index
stays as it is meanwhile is the model's reading (log 7). -/
def Obligations.DisplayAcknowledgementIssuesWait : Prop :=
  ∀ (s : State) (job : Job) (i : Nat),
    (currentLines s).rst = false → s.phase = .run job i .awaitDisplay → (currentLines s).dispAck = true →
    job.delay ≠ 0 →
    ∃ t, step s = .next t ∧ t.phase = .run job i .awaitWait ∧ waitRequest t = some job.delay ∧
      displayRequest t = none ∧ t.events = s.events ++ [.wait job.delay] ∧ BufferKept s t ∧ ParamsKept s t ∧
      ResultKept s t ∧ t.illegal = s.illegal ∧ t.cmds = s.cmds ∧ t.inputs = laterInputs s.inputs

/-- R140, R141, R142: the acknowledgement of an iteration's Wait writes the next pixel and displays it, or, after the
last pixel, completes the wipe with no further event. That the write belongs to the acknowledging step, that the pixel
written is the index `i`, and that `i + 1` is then the index, is the model's reading (log 7, DEDUCED from R16 and R27). -/
def Obligations.WaitAcknowledgementWritesTheNextPixel : Prop :=
  ∀ (s : State) (job : Job) (i : Nat),
    s.params.legal = true → (currentLines s).rst = false → s.phase = .run job i .awaitWait →
    (currentLines s).waitAck = true → job ≠ .showBuf →
    ∃ t, step s = .next t ∧ OnlyDisplays { s with inputs := laterInputs s.inputs } t ∧
      (i < s.params.npix →
        t.phase = .run job (i + 1) .awaitDisplay ∧
        (∀ c d, job = .wipes c d → PixelHolds s.params t.mem i c) ∧
        (∀ sh d, job = .wiper sh d → ∃ pos : Byte,
          pos.toNat = (sh.toNat + i * 256 / s.params.npix) % 256 ∧ PixelHolds s.params t.mem i (hueColor pos)) ∧
        BufferKeptOutside (i * s.params.stride) s.params.stride s t ∧
        t.events = s.events ++ [.display (snapshot t.params t.mem)] ∧
        displayRequest t = some (snapshot t.params t.mem)) ∧
      (s.params.npix ≤ i → t.phase = .idle ∧ BufferKept s t ∧ NoEvent s t)

/-- R183: an acknowledgement with no request outstanding for it has no effect: the step answers the same whether the
line is high or low. -/
def Obligations.SpuriousAcknowledgementIsIgnored : Prop :=
  ∀ (s : State) (l l' next : Lines) (rest : List Lines), l.rst = l'.rst →
    (displayRequest s = none ∨ l.dispAck = l'.dispAck) → (waitRequest s = none ∨ l.waitAck = l'.waitAck) →
    step { s with inputs := l :: next :: rest } = step { s with inputs := l' :: next :: rest }

/-- R183: with no command in flight and none offered, nothing happens. -/
def Obligations.IdleEngineStaysIdle : Prop :=
  ∀ s : State, (currentLines s).rst = false → s.phase = .idle → s.cmds = [] →
    step s = .next { s with inputs := laterInputs s.inputs }

/-- R198, R145: while a Display is outstanding the engine writes no buffer byte and not `RESULT`, whatever the lines
say, but for reset. -/
def Obligations.NothingIsWrittenWhileDisplayOutstanding : Prop :=
  ∀ (s t : State) (snap : List Byte), (currentLines s).rst = false → displayRequest s = some snap → step s = .next t →
    BufferKept s t ∧ ResultKept s t ∧ ParamsKept s t ∧ t.illegal = s.illegal ∧ t.cmds = s.cmds

/-! ### Reset values and construction -/

/-- R32: the reset values the spec gives. The parameters of this instance are the model's choice (log 3, log 4). -/
def Obligations.ResetStateHasTheSpecsResetValues : Prop :=
  State.reset.result = 0x00000000#32 ∧ statusWord State.reset = 0x00000000#32 ∧ State.reset.illegal = false ∧
  busy State.reset = false ∧ State.reset.phase = .idle ∧ State.reset.events = [] ∧
  snapshot State.reset.params State.reset.mem = State.reset.params.init ∧
  displayRequest State.reset = none ∧ waitRequest State.reset = none ∧ cmdReady State.reset = true ∧
  State.reset.params.legal = true ∧ State.reset.cmds = []

/-- R6, R136, R192, R32: construction is refused exactly when `NPIX` is above 65535, or the channel order is no permutation
of the bytes of a pixel, or `INIT_BUFFER` is not `NPIX * STRIDE` bytes long; these are the parameters `Params.legal` is
false of. From all others it answers the reset values, with the buffer `INIT_BUFFER`. -/
def Obligations.ConstructionRefusesExactlyIllegalParameters : Prop :=
  ∀ (p : Params) (ws : List CmdWord) (ls : List Lines),
    let permutation : Prop :=
      if p.layout = .rgbw then
        ({p.order.rOff.val, p.order.gOff.val, p.order.bOff.val, p.order.wOff.val} : Finset Nat) = {0, 1, 2, 3}
      else ({p.order.rOff.val, p.order.gOff.val, p.order.bOff.val} : Finset Nat) = {0, 1, 2}
    let stride := if p.layout = .rgbw then 4 else 3
    (construct p ws ls = .refused .illegalParameters ↔
      65535 < p.npix ∨ ¬ permutation ∨ p.init.length ≠ p.npix * stride) ∧
    (p.legal = true ↔ p.npix ≤ 65535 ∧ permutation ∧ p.init.length = p.npix * stride) ∧
    (p.npix ≤ 65535 → permutation → p.init.length = p.npix * stride →
      ∃ t, construct p ws ls = .next t ∧ t.params = p ∧ snapshot p t.mem = p.init ∧
        t.result = 0 ∧ statusWord t = 0 ∧ t.phase = .idle ∧ t.events = [] ∧ t.cmds = ws ∧ t.inputs = ls)

/-- R136: the legal channel orders, as sets of offsets (`W_OFF` is ignored in `RGB`); construction is refused for any
other, whatever the other parameters are. -/
def Obligations.LegalChannelOrdersArePermutations : Prop :=
  (∀ o : ChOrder,
    (o.legal .rgb = true ↔ ({o.rOff.val, o.gOff.val, o.bOff.val} : Finset Nat) = {0, 1, 2}) ∧
    (o.legal .rgbw = true ↔ ({o.rOff.val, o.gOff.val, o.bOff.val, o.wOff.val} : Finset Nat) = {0, 1, 2, 3})) ∧
  ∀ (p : Params) (ws : List CmdWord) (ls : List Lines), p.order.legal p.layout = false →
    construct p ws ls = .refused .illegalParameters

/-! ### Host-readable registers -/

/-- R26: every field of `CONFIG`, host register number 2, reserved bits 0; no step changes it. -/
def Obligations.ConfigRegisterFields : Prop :=
  ∀ s : State, s.params.npix ≤ 65535 →
    let config := hostRead s 2
    (config.extractLsb' 0 16).toNat = s.params.npix ∧
    (config.extractLsb' 16 1).toNat = (if s.params.layout = .rgbw then 1 else 0) ∧
    (config.extractLsb' 17 3).toNat = 0 ∧
    (config.extractLsb' 20 3).toNat = (if s.params.layout = .rgbw then 4 else 3) ∧
    (config.extractLsb' 23 1).toNat = 0 ∧
    (config.extractLsb' 24 2).toNat = s.params.order.rOff.val ∧
    (config.extractLsb' 26 2).toNat = s.params.order.gOff.val ∧
    (config.extractLsb' 28 2).toNat = s.params.order.bOff.val ∧
    (config.extractLsb' 30 2).toNat = (if s.params.layout = .rgbw then s.params.order.wOff.val else 3) ∧
    ∀ t, step s = .next t → hostRead t 2 = config

/-- R25, R27: `STATUS` bit 0 is 1 exactly when a command is in flight, bit 1 is `ILLEGAL`, the rest is 0. -/
def Obligations.StatusRegisterBits : Prop :=
  ∀ s : State,
    ((statusWord s).getLsbD 0 = true ↔ s.phase ≠ .idle) ∧ ((statusWord s).getLsbD 1 = true ↔ s.illegal = true) ∧
    (statusWord s).extractLsb' 2 30 = 0

/-- R28, R60: register numbers 0, 1, 2 and 3, in every state, in flight or not. -/
def Obligations.HostRegisterReads : Prop :=
  ∀ s : State, hostRead s 0 = s.result ∧ hostRead s 1 = statusWord s ∧ hostRead s 2 = configWord s.params ∧
    hostRead s 3 = 0x00000000#32

/-- R25: `ILLEGAL` is sticky: no step but a reset clears it, and only the rejection of an illegal word sets it. -/
def Obligations.IllegalBitIsSticky : Prop :=
  ∀ s t : State, step s = .next t →
    (s.illegal = true → (currentLines s).rst = false → t.illegal = true) ∧
    (s.illegal = false → t.illegal = true →
      s.phase = .idle ∧ ∃ w ws, s.cmds = w :: ws ∧ legalWord w = false)

/-- R24: the eight commands that write `RESULT` are the only ones; every other leaves it unchanged. -/
def Obligations.OnlyEightCommandsWriteResult : Prop :=
  ∀ (i : Instr) (s t : State), exec i s = .next t →
    i.op ∉ [Op.pack, Op.getw, Op.getr, Op.getg, Op.getb, Op.scale, Op.hue, Op.getpix] → t.result = s.result

/-- R21: no step changes a construction parameter, `BUFLEN` or `CONFIG`, and the buffer has `NPIX * STRIDE` bytes at
all times. -/
def Obligations.ConfigurationNeverChanges : Prop :=
  ∀ s t : State, step s = .next t →
    t.params = s.params ∧ t.params.bufLen = s.params.bufLen ∧ hostRead t 2 = hostRead s 2 ∧
    (snapshot t.params t.mem).length = s.params.npix * s.params.stride

/-! ### Color codec, brightness, hue (spec/40 to 42) -/

/-- R100: PACK, its word and its result, which equals `cmd[31:0]`; nothing else changes. -/
def Obligations.PackCombinesFourChannels : Prop :=
  ∀ (w r g b : Byte) (s : State),
    (encode (.pack w r g b)).toNat =
      0x01 * 2 ^ 56 + w.toNat * 2 ^ 24 + r.toNat * 2 ^ 16 + g.toNat * 2 ^ 8 + b.toNat ∧
    ∃ t, exec (.pack w r g b) s = .next t ∧
      t.result.toNat = w.toNat * 2 ^ 24 + r.toNat * 2 ^ 16 + g.toNat * 2 ^ 8 + b.toNat ∧ OnlyResult s t

/-- R101 to R104: GETW, GETR, GETG, GETB, their words and the zero-extended channel each leaves in `RESULT`. -/
def Obligations.ChannelAccessorsExtract : Prop :=
  ∀ (c : Color) (s : State),
    (encode (.getw c)).toNat = 0x02 * 2 ^ 56 + c.toNat ∧ (encode (.getr c)).toNat = 0x03 * 2 ^ 56 + c.toNat ∧
    (encode (.getg c)).toNat = 0x04 * 2 ^ 56 + c.toNat ∧ (encode (.getb c)).toNat = 0x05 * 2 ^ 56 + c.toNat ∧
    (∃ t, exec (.getw c) s = .next t ∧ t.result.toNat = c.toNat / 2 ^ 24 ∧ OnlyResult s t) ∧
    (∃ t, exec (.getr c) s = .next t ∧ t.result.toNat = c.toNat / 2 ^ 16 % 256 ∧ OnlyResult s t) ∧
    (∃ t, exec (.getg c) s = .next t ∧ t.result.toNat = c.toNat / 2 ^ 8 % 256 ∧ OnlyResult s t) ∧
    (∃ t, exec (.getb c) s = .next t ∧ t.result.toNat = c.toNat % 256 ∧ OnlyResult s t)

/-- The round trip of R105: extracting from a packed color gives the channels back, and packing the four extracted
channels gives the color back. -/
def Obligations.PackAndUnpackRoundTrip : Prop :=
  (∀ (w r g b : Byte) (s t : State), exec (.pack w r g b) s = .next t →
    ∃ tw tr tg tb, exec (.getw t.result) t = .next tw ∧ exec (.getr t.result) t = .next tr ∧
      exec (.getg t.result) t = .next tg ∧ exec (.getb t.result) t = .next tb ∧
      tw.result.toNat = w.toNat ∧ tr.result.toNat = r.toNat ∧ tg.result.toNat = g.toNat ∧ tb.result.toNat = b.toNat) ∧
  (∀ (c : Color) (s tw tr tg tb : State),
    exec (.getw c) s = .next tw → exec (.getr c) s = .next tr → exec (.getg c) s = .next tg → exec (.getb c) s = .next tb →
    ∃ t, exec (.pack (tw.result.setWidth 8) (tr.result.setWidth 8) (tg.result.setWidth 8) (tb.result.setWidth 8)) s = .next t ∧
      t.result = c)

/-- R110, R111: SCALE, its word, and each channel `floor(x * (f + 1) / 256)`; nothing else changes. -/
def Obligations.ScaleScalesEveryChannel : Prop :=
  ∀ (c : Color) (f : Byte) (s : State),
    (encode (.scale c f)).toNat = 0x06 * 2 ^ 56 + f.toNat * 2 ^ 32 + c.toNat ∧
    ∃ t, exec (.scale c f) s = .next t ∧
      (∀ lane, lane < 4 → (t.result.extractLsb' (8 * lane) 8).toNat =
        (c.extractLsb' (8 * lane) 8).toNat * (f.toNat + 1) / 256) ∧ OnlyResult s t

/-- The laws of R112: factor 255 is the identity, factor 0 gives black, no channel increases, a larger channel or a
larger factor gives no smaller result, and a channel is 0 exactly when `x * (f + 1) < 256`. -/
def Obligations.ScaleLaws : Prop :=
  ∀ (c c' : Color) (f f' : Byte) (s t t' : State),
    exec (.scale c f) s = .next t → exec (.scale c' f') s = .next t' →
    (f = 255 → t.result = c) ∧ (f = 0 → t.result = 0) ∧
    (∀ lane, lane < 4 →
      (t.result.extractLsb' (8 * lane) 8).toNat ≤ (c.extractLsb' (8 * lane) 8).toNat ∧
      (t.result.extractLsb' (8 * lane) 8 = 0 ↔ (c.extractLsb' (8 * lane) 8).toNat * (f.toNat + 1) < 256) ∧
      ((c.extractLsb' (8 * lane) 8).toNat ≤ (c'.extractLsb' (8 * lane) 8).toNat → f.toNat ≤ f'.toNat →
        (t.result.extractLsb' (8 * lane) 8).toNat ≤ (t'.result.extractLsb' (8 * lane) 8).toNat))

/-- R120, R121: HUE, its word and its result in the three bands of the inverted position; nothing else changes. -/
def Obligations.HueFollowsTheThreeBands : Prop :=
  ∀ (p : Byte) (s : State),
    (encode (.hue p)).toNat = 0x07 * 2 ^ 56 + p.toNat ∧
    ∃ t, exec (.hue p) s = .next t ∧ OnlyResult s t ∧
      let q := 255 - p.toNat
      t.result.toNat =
        if q < 85 then (255 - 3 * q) * 2 ^ 16 + 3 * q
        else if q < 170 then 3 * (q - 85) * 2 ^ 8 + (255 - 3 * (q - 85))
        else 3 * (q - 170) * 2 ^ 16 + (255 - 3 * (q - 170)) * 2 ^ 8

/-- The laws of R123 and R125: white 0; the three channels sum to 255; each is a multiple of 3; exactly one channel is
non-zero, and is 255, at positions 0, 85, 170 and 255, and exactly two are non-zero at every other; the boundary
positions are red, green and blue; consecutive positions differ by 3 in two channels and by 0 in the third, and the
wheel repeats red at its two ends. -/
def Obligations.HueLaws : Prop :=
  ∀ p : Byte,
    let red (q : Byte) : Nat := (chanR (hueColor q)).toNat
    let green (q : Byte) : Nat := (chanG (hueColor q)).toNat
    let blue (q : Byte) : Nat := (chanB (hueColor q)).toNat
    let lit : List Nat := [red p, green p, blue p].filter (· ≠ 0)
    chanW (hueColor p) = 0 ∧ red p + green p + blue p = 255 ∧
    red p % 3 = 0 ∧ green p % 3 = 0 ∧ blue p % 3 = 0 ∧
    (if p.toNat ∈ [0, 85, 170, 255] then lit = [255] else lit.length = 2) ∧
    (p.toNat < 85 → red (p + 1) + 3 = red p ∧ green (p + 1) = green p + 3 ∧ blue (p + 1) = blue p) ∧
    (85 ≤ p.toNat ∧ p.toNat < 170 → red (p + 1) = red p ∧ green (p + 1) + 3 = green p ∧ blue (p + 1) = blue p + 3) ∧
    (170 ≤ p.toNat ∧ p.toNat < 255 → red (p + 1) = red p + 3 ∧ green (p + 1) = green p ∧ blue (p + 1) + 3 = blue p) ∧
    hueColor 0 = 0x00FF0000#32 ∧ hueColor 85 = 0x0000FF00#32 ∧ hueColor 170 = 0x000000FF#32 ∧ hueColor 255 = hueColor 0

/-- R106: the codec commands, SCALE and HUE compute the same result in every state: they read neither the layout nor
the buffer nor any register. -/
def Obligations.CodecIgnoresLayoutAndBuffer : Prop :=
  ∀ (i : Instr) (s s' t t' : State),
    i.op ∈ [Op.pack, Op.getw, Op.getr, Op.getg, Op.getb, Op.scale, Op.hue] →
    exec i s = .next t → exec i s' = .next t' → t.result = t'.result

/-! ### Pixels (spec/43) -/

/-- R130, R132: SETPIX, its word; an index below `NPIX` writes the pixel's bytes through `CH_ORDER` and no other byte;
an index at or above `NPIX` is the fault. -/
def Obligations.SetpixWritesOnePixel : Prop :=
  ∀ (n : Half) (c : Color) (s : State),
    (encode (.setpix n c)).toNat = 0x10 * 2 ^ 56 + n.toNat * 2 ^ 32 + c.toNat ∧
    (s.params.legal = true → n.toNat < s.params.npix →
      ∃ t, exec (.setpix n c) s = .next t ∧ OnlyBuffer s t ∧ PixelHolds s.params t.mem n.toNat c ∧
        BufferKeptOutside (n.toNat * s.params.stride) s.params.stride s t) ∧
    (s.params.npix ≤ n.toNat → exec (.setpix n c) s = .fault (.pixelIndexOutOfRange n))

/-- R131, R133: GETPIX, its word; an index below `NPIX` gathers the pixel's channels, white 0 in `RGB`, and changes
nothing but `RESULT`; an index at or above `NPIX` is the fault. -/
def Obligations.GetpixReadsOnePixel : Prop :=
  ∀ (n : Half) (s : State),
    (encode (.getpix n)).toNat = 0x11 * 2 ^ 56 + n.toNat * 2 ^ 32 ∧
    (n.toNat < s.params.npix →
      ∃ t, exec (.getpix n) s = .next t ∧ OnlyResult s t ∧
        let base := n.toNat * s.params.stride
        t.result.toNat =
          (if s.params.layout = .rgbw then (memRead s.mem (base + s.params.order.wOff.val)).toNat else 0) * 2 ^ 24 +
          (memRead s.mem (base + s.params.order.rOff.val)).toNat * 2 ^ 16 +
          (memRead s.mem (base + s.params.order.gOff.val)).toNat * 2 ^ 8 +
          (memRead s.mem (base + s.params.order.bOff.val)).toNat) ∧
    (s.params.npix ≤ n.toNat → exec (.getpix n) s = .fault (.pixelIndexOutOfRange n))

/-- The read after a write of R131: GETPIX of the index SETPIX wrote gives the color in `RGBW` and the color without
its white byte in `RGB`; another pixel reads as before. -/
def Obligations.GetpixAfterSetpix : Prop :=
  ∀ (n k : Half) (c : Color) (s t : State), s.params.legal = true → k.toNat < s.params.npix →
    exec (.setpix n c) s = .next t →
    ∃ u v, exec (.getpix k) s = .next u ∧ exec (.getpix k) t = .next v ∧
      (k = n → v.result = if s.params.layout = .rgbw then c else c &&& 0x00FFFFFF#32) ∧
      (k ≠ n → v.result = u.result)

/-- R173: the one fault is an out-of-range SETPIX or GETPIX of an accepted word, with the index it carries, and no
step is ever refused. -/
def Obligations.OnlyOutOfRangeIndexFaults : Prop :=
  ∀ s : State,
    (∀ r, step s ≠ .refused r) ∧
    ∀ f, step s = .fault f ↔
      (currentLines s).rst = false ∧ s.phase = .idle ∧
      ∃ w ws n, s.cmds = w :: ws ∧ f = .pixelIndexOutOfRange n ∧ s.params.npix ≤ n.toNat ∧
        (decodeWord w = .ok (.getpix n) ∨ ∃ c, decodeWord w = .ok (.setpix n c))

/-! ### Wipes (spec/44) -/

/-- R140, R142, R150: on a strand of no pixels the wipes and the scrolls do nothing and emit nothing. -/
def Obligations.ZeroLengthStrandIsANoOp : Prop :=
  ∀ (s : State) (c : Color) (n d : Half) (sh : Byte), s.params.npix = 0 →
    exec (.wipes c d) s = .next s ∧ exec (.wiper sh d) s = .next s ∧
    exec (.scrlf n c) s = .next s ∧ exec (.scrlb n c) s = .next s

/-- R140: WIPES with `DELAY = 0`, its word: every pixel is written, then one Display of the whole new buffer, and the
engine holds for its acknowledgement. That the index is then `NPIX` is the model's choice (log 8). -/
def Obligations.InstantWipeSetsEveryPixel : Prop :=
  ∀ (c : Color) (s : State), s.params.legal = true → 0 < s.params.npix →
    (encode (.wipes c 0)).toNat = 0x20 * 2 ^ 56 + c.toNat ∧
    ∃ t, exec (.wipes c 0) s = .next t ∧ OnlyDisplays s t ∧ (∀ i, i < s.params.npix → PixelHolds s.params t.mem i c) ∧
      BufferKeptOutside 0 s.params.bufLen s t ∧
      t.events = s.events ++ [.display (snapshot t.params t.mem)] ∧
      t.phase = .run (.wipes c 0) s.params.npix .awaitFinalDisplay ∧ displayRequest t = some (snapshot t.params t.mem)

/-- R142, R143: WIPER with `DELAY = 0`, its word: pixel `i` is `Hue` of `(SHIFT + (i * 256) / NPIX) mod 256`, then one
Display. That the index is then `NPIX` is the model's choice (log 8). -/
def Obligations.InstantRainbowSpansTheWheel : Prop :=
  ∀ (sh : Byte) (s : State), s.params.legal = true → 0 < s.params.npix →
    (encode (.wiper sh 0)).toNat = 0x21 * 2 ^ 56 + sh.toNat ∧
    ∃ t, exec (.wiper sh 0) s = .next t ∧ OnlyDisplays s t ∧
      (∀ i, i < s.params.npix → ∃ pos : Byte, pos.toNat = (sh.toNat + i * 256 / s.params.npix) % 256 ∧
        PixelHolds s.params t.mem i (hueColor pos)) ∧
      BufferKeptOutside 0 s.params.bufLen s t ∧
      t.events = s.events ++ [.display (snapshot t.params t.mem)] ∧
      t.phase = .run (.wiper sh 0) s.params.npix .awaitFinalDisplay ∧ displayRequest t = some (snapshot t.params t.mem)

/-- R140, R142: a wipe with a delay, their words: the first pixel is written and displayed, the others are as they
were, and the engine holds for the Display. That the accepting step does this, and that the index is then 1, is the
model's reading (log 7). -/
def Obligations.AnimatedWipeStartsWithPixelZero : Prop :=
  ∀ (c : Color) (sh : Byte) (d : Half) (s : State), s.params.legal = true → 0 < s.params.npix → d ≠ 0 →
    (encode (.wipes c d)).toNat = 0x20 * 2 ^ 56 + d.toNat * 2 ^ 32 + c.toNat ∧
    (encode (.wiper sh d)).toNat = 0x21 * 2 ^ 56 + d.toNat * 2 ^ 32 + sh.toNat ∧
    (∃ t, exec (.wipes c d) s = .next t ∧ OnlyDisplays s t ∧ PixelHolds s.params t.mem 0 c ∧
      BufferKeptOutside 0 s.params.stride s t ∧
      t.events = s.events ++ [.display (snapshot t.params t.mem)] ∧ t.phase = .run (.wipes c d) 1 .awaitDisplay) ∧
    (∃ t, exec (.wiper sh d) s = .next t ∧ OnlyDisplays s t ∧ PixelHolds s.params t.mem 0 (hueColor sh) ∧
      BufferKeptOutside 0 s.params.stride s t ∧
      t.events = s.events ++ [.display (snapshot t.params t.mem)] ∧ t.phase = .run (.wiper sh d) 1 .awaitDisplay)

/-- R140, R141, R142, R145: under collaborators that acknowledge at once, an accepted wipe with a delay runs to
completion in `2 * NPIX + 1` steps, a count of this model's steps and the model's choice (log 14, DESIGN CHOICE; the
spec counts none): `NPIX` Displays interleaved with `NPIX` Waits, Display first, no event after the
last Wait; the `k`-th Display shows the first `k` pixels with their new colors and the rest as it was; then every pixel
has its color and the engine is idle with the words behind it still waiting. -/
def Obligations.AnimatedWipeRunsToCompletion : Prop :=
  ∀ (s : State) (job : Job) (f : Nat → Color) (ws : List CmdWord), s.params.legal = true → 0 < s.params.npix →
    s.phase = .idle → PromptLines s → job.delay ≠ 0 → s.cmds = job.cmd :: ws →
    ((∃ c d, job = .wipes c d ∧ f = fun _ => c) ∨
     (∃ sh d, job = .wiper sh d ∧ ∀ i, f i = hueColor (BitVec.ofNat 8 (sh.toNat + i * 256 / s.params.npix)))) →
    ∃ t, core.run (2 * s.params.npix + 1) s = .next t ∧ t.phase = .idle ∧ t.cmds = ws ∧ t.inputs = s.inputs ∧
      ParamsKept s t ∧ ResultKept s t ∧ t.illegal = s.illegal ∧
      t.events = s.events ++ wipeEvents s.params f job.delay s.mem 0 s.params.npix ∧
      (∀ k, (∀ i, i < k → PixelHolds s.params (wipedTo s.params f s.mem k) i (f i)) ∧
        ∀ a, k * s.params.stride ≤ a → memRead (wipedTo s.params f s.mem k) a = memRead s.mem a) ∧
      (∀ i, i < s.params.npix → PixelHolds s.params t.mem i (f i)) ∧ BufferKeptOutside 0 s.params.bufLen s t

/-! ### Scrolls (spec/45) -/

/-- R150, R151: SCRLF, its word: with `a = AMOUNT mod NPIX`, pixel `j ≥ a` becomes old pixel `j - a`, the first `a`
pixels the fill color; with `a = 0` nothing changes. No display, no `RESULT`. -/
def Obligations.ScrollForwardShiftsAndFills : Prop :=
  ∀ (n : Half) (c : Color) (s : State), s.params.legal = true →
    (encode (.scrlf n c)).toNat = 0x30 * 2 ^ 56 + n.toNat * 2 ^ 32 + c.toNat ∧
    ∃ t, exec (.scrlf n c) s = .next t ∧ OnlyBuffer s t ∧ BufferKeptOutside 0 s.params.bufLen s t ∧
      let a := if s.params.npix = 0 then 0 else n.toNat % s.params.npix
      (a = 0 → t = s) ∧
      (0 < a → (∀ j, a ≤ j → j < s.params.npix → PixelSame s.params t.mem j s.mem (j - a)) ∧
        ∀ j, j < a → PixelHolds s.params t.mem j c)

/-- R150, R152: SCRLB, its word: with `a = AMOUNT mod NPIX`, pixel `j < NPIX - a` becomes old pixel `j + a`, the last
`a` pixels the fill color; with `a = 0` nothing changes. No display, no `RESULT`. -/
def Obligations.ScrollBackwardShiftsAndFills : Prop :=
  ∀ (n : Half) (c : Color) (s : State), s.params.legal = true →
    (encode (.scrlb n c)).toNat = 0x31 * 2 ^ 56 + n.toNat * 2 ^ 32 + c.toNat ∧
    ∃ t, exec (.scrlb n c) s = .next t ∧ OnlyBuffer s t ∧ BufferKeptOutside 0 s.params.bufLen s t ∧
      let a := if s.params.npix = 0 then 0 else n.toNat % s.params.npix
      (a = 0 → t = s) ∧
      (0 < a → (∀ j, j < s.params.npix - a → PixelSame s.params t.mem j s.mem (j + a)) ∧
        ∀ j, s.params.npix - a ≤ j → j < s.params.npix → PixelHolds s.params t.mem j c)

/-- The law of R154 (b): a forward then a backward scroll by the same amount and fill restores the leading pixels and
leaves the fill in the trailing ones: what was shifted off is lost. -/
def Obligations.ScrollForwardThenBackwardLosesTheEnd : Prop :=
  ∀ (n : Half) (c : Color) (s t : State), s.params.legal = true → 0 < s.params.npix → 0 < n.toNat % s.params.npix →
    exec (.scrlf n c) s = .next t →
    ∃ u, exec (.scrlb n c) t = .next u ∧
      (∀ j, j < s.params.npix - n.toNat % s.params.npix → PixelSame s.params u.mem j s.mem j) ∧
      ∀ j, s.params.npix - n.toNat % s.params.npix ≤ j → j < s.params.npix → PixelHolds s.params u.mem j c

/-- The law of R154 (c): after either scroll the fill region reads back the fill color through GETPIX, white 0 in `RGB`:
the leading pixels after SCRLF, the trailing ones after SCRLB. -/
def Obligations.ScrollFillReadsBack : Prop :=
  ∀ (n k : Half) (c : Color) (s t : State), s.params.legal = true → 0 < s.params.npix →
    (exec (.scrlf n c) s = .next t → k.toNat < n.toNat % s.params.npix →
      ∃ u, exec (.getpix k) t = .next u ∧ u.result = storedColor s.params c) ∧
    (exec (.scrlb n c) s = .next t → s.params.npix - n.toNat % s.params.npix ≤ k.toNat → k.toNat < s.params.npix →
      ∃ u, exec (.getpix k) t = .next u ∧ u.result = storedColor s.params c)

/-! ### System commands (spec/46) -/

/-- R160: SHOW, its word: one Display of the whole buffer, empty when `NPIX = 0`; the buffer and `RESULT` are
unchanged; the engine is busy until `disp_ack`, on whatever lines the next steps sample. -/
def Obligations.ShowDisplaysTheBuffer : Prop :=
  ∀ s : State, encode .showBuf = 0x4000000000000000#64 ∧
    ∃ t snap, exec .showBuf s = .next t ∧ snap.length = s.params.bufLen ∧
      (∀ k (h : k < snap.length), snap[k] = memRead s.mem k) ∧
      t.events = s.events ++ [.display snap] ∧ displayRequest t = some snap ∧ busy t = true ∧
      BufferKept s t ∧ OnlyDisplays s t ∧
      ∀ ls : List Lines, (currentLines { t with inputs := ls }).rst = false →
        ∃ u, step { t with inputs := ls } = .next u ∧
          (busy u = true ↔ (currentLines { t with inputs := ls }).dispAck = false)

/-- R161: NOP, its word, the all-zero word: nothing changes. -/
def Obligations.NopChangesNothing : Prop :=
  encode .nop = 0x0000000000000000#64 ∧ decodeWord 0x0000000000000000#64 = .ok .nop ∧
  (∀ w : CmdWord, w.extractLsb' 56 8 = 0 → w ≠ 0 → decodeWord w = .error .reservedBits) ∧
  ∀ s : State, exec .nop s = .next s

/-- R162: only SHOW, WIPES and WIPER emit a Display; no other command emits anything. -/
def Obligations.OnlyShowAndWipesDisplay : Prop :=
  ∀ (i : Instr) (s t : State), exec i s = .next t → i.op ∉ [Op.showBuf, Op.wipes, Op.wiper] →
    t.events = s.events ∧ t.phase = s.phase

/-- R47: every command but the three with an outward effect and the two scrolls is idempotent on the state. -/
def Obligations.RepeatedCommandsAreIdempotent : Prop :=
  ∀ (i : Instr) (s t : State), s.mem.wf →
    i.op ∉ [Op.showBuf, Op.wipes, Op.wiper, Op.scrlf, Op.scrlb] → exec i s = .next t → exec i t = .next t

/-! ### Invariants -/

/-- Every step keeps the invariant: legal parameters, a canonical buffer within `BUFLEN`, a phase of `PhaseOk`, Displays of
`BUFLEN` bytes and no Wait of 0 ms, and while a request is outstanding the last event is that request, a Display with the
buffer as it stands. R27 and R140 give the stages and the range of the index; that SHOW is in flight at index 0 and an
instant wipe at `NPIX` is the model's choice (log 8, DESIGN CHOICE: no rule names an index for either), and the place of
an animated wipe's index, past the pixel it wrote last, is the model's reading (log 7). -/
def Obligations.StepKeepsTheInvariant : Prop :=
  ∀ s t : State, Inv s → step s = .next t → Inv t

/-- The state after reset meets the invariant. -/
def Obligations.ResetMeetsTheInvariant : Prop := Inv State.reset

/-- Every constructed instance meets the invariant. -/
def Obligations.ConstructionMeetsTheInvariant : Prop :=
  ∀ (p : Params) (ws : List CmdWord) (ls : List Lines) (t : State), construct p ws ls = .next t → Inv t

/-- R182, R14: the event history only grows at its end, but for reset. That it grows by at most one event a step is the
model's bound, not the spec's: it follows from how this model cuts a run into steps, within R16, with at most one
acknowledgement a step (log 14, DESIGN CHOICE) and the pixel write in the step that reaches it (log 7, DEDUCED). -/
def Obligations.EventHistoryOnlyGrows : Prop :=
  ∀ s t : State, (currentLines s).rst = false → step s = .next t →
    t.events = s.events ∨ ∃ e, t.events = s.events ++ [e]

/-- R9, R27, D18: under collaborators that acknowledge at once, whatever command is in flight runs to completion: the
engine is idle after at most `2 * NPIX + 2` steps, with every offered word still waiting. The bound counts this model's
steps and is the model's choice (log 14, DESIGN CHOICE; the spec counts none). -/
def Obligations.CommandInFlightCompletes : Prop :=
  ∀ s : State, Inv s → PromptLines s → busy s = true →
    ∃ n t, n ≤ 2 * s.params.npix + 2 ∧ core.run n s = .next t ∧ t.phase = .idle ∧ t.cmds = s.cmds

/-- R27, R191: only reset ends a command in flight early: with `rst` low a command in flight goes on as the same
command, or it was waiting for the acknowledgement of its last request and that came in. How the index moves, by at
most one a step and to `NPIX` at the last Wait, is the model's reading (log 7). -/
def Obligations.NoCancellationButReset : Prop :=
  ∀ (s t : State) (job : Job) (i : Nat) (stage : Stage), Inv s → (currentLines s).rst = false →
    s.phase = .run job i stage → step s = .next t →
    (∃ i' stage', t.phase = .run job i' stage' ∧ i ≤ i' ∧ i' ≤ i + 1) ∨
    (t.phase = .idle ∧
      (stage = .awaitFinalDisplay ∧ (currentLines s).dispAck = true ∨
       stage = .awaitWait ∧ (currentLines s).waitAck = true ∧ i = s.params.npix))
end

