-- ==== Sys2Proof/Laws/Fields.lean ====
section
/-! SUPPORT. Fields of a 64-bit word: reading one back, and the bits outside them (spec/30_encoding.md R62, R63). -/
namespace Sys2Proof

theorem getLsbD_placed {n : Nat} (lo : Nat) (x : BitVec n) (k : Nat) :
    (placed lo x).getLsbD k = (decide (k < 64) && (decide (lo ≤ k) && x.getLsbD (k - lo))) := by
  by_cases h : lo ≤ k
  · by_cases h2 : k < 64
    · simp [placed, h, h2, show ¬ k < lo by omega]
    · simp [placed, h, h2]
  · simp [placed, h, show k < lo by omega]

/-- A field placed at its bits reads back whole. -/
theorem read_placed_same {n : Nat} (lo : Nat) (x : BitVec n) (h : lo + n ≤ 64) : (placed lo x).extractLsb' lo n = x := by
  apply BitVec.eq_of_getLsbD_eq
  intro i hi
  simp [getLsbD_placed, hi]
  omega

/-- A field placed elsewhere leaves these bits 0. -/
theorem read_placed_other {n n' : Nat} (lo lo' : Nat) (x : BitVec n) (h : lo + n ≤ lo' ∨ lo' + n' ≤ lo) :
    (placed lo x).extractLsb' lo' n' = 0 := by
  apply BitVec.eq_of_getLsbD_eq
  intro i hi
  rcases h with h | h
  · simp [getLsbD_placed, hi, BitVec.getLsbD_of_ge x (lo' + i - lo) (by omega)]
  · simp [getLsbD_placed, hi, show ¬ lo ≤ lo' + i by omega]

/-- A field placed where the mask is 0 is not under the mask. -/
theorem placed_and_mask {n : Nat} (lo : Nat) (x : BitVec n) (m : CmdWord) (h : m.extractLsb' lo n = 0) :
    placed lo x &&& m = 0 := by
  apply BitVec.eq_of_getLsbD_eq
  intro i hi
  by_cases h1 : lo ≤ i
  · by_cases h2 : i - lo < n
    · have := congrArg (fun v => v.getLsbD (i - lo)) h
      simp [h2, show lo + (i - lo) = i by omega] at this
      simp [this]
    · simp [getLsbD_placed, BitVec.getLsbD_of_ge x (i - lo) (by omega)]
  · simp [getLsbD_placed, h1]

/-- A word with no bit under the mask reads 0 in every field the mask covers. -/
theorem read_of_and_mask {w m : CmdWord} {lo n : Nat} (h : w &&& m = 0) (hm : m.extractLsb' lo n = BitVec.allOnes n) :
    w.extractLsb' lo n = 0 := by
  apply BitVec.eq_of_getLsbD_eq
  intro i hi
  have h1 := congrArg (fun v => v.getLsbD (lo + i)) h
  have h2 := congrArg (fun v => v.getLsbD i) hm
  simp [hi] at h1 h2
  simp [hi]
  by_contra hc
  simp at hc
  simp [hc, h2] at h1

/-- A word is the fields of its eight bytes, so two words with equal bytes are equal. -/
theorem word_ext {v w : CmdWord} (h : ∀ k, k < 8 → v.extractLsb' (8 * k) 8 = w.extractLsb' (8 * k) 8) : v = w := by
  apply BitVec.eq_of_getLsbD_eq
  intro i hi
  have := congrArg (fun x => x.getLsbD (i % 8)) (h (i / 8) (by omega))
  simpa [show i % 8 < 8 by omega, show 8 * (i / 8) + i % 8 = i by omega] using this

theorem and_mask_or (a b m : CmdWord) : (a ||| b) &&& m = (a &&& m) ||| (b &&& m) := by
  apply BitVec.eq_of_getLsbD_eq
  intro i hi
  simp [Bool.and_or_distrib_right]

/-- The value of a field at its bits. -/
theorem placed_toNat {n : Nat} (lo : Nat) (x : BitVec n) (h : lo + n ≤ 64) : (placed lo x).toNat = x.toNat * 2 ^ lo := by
  have hx : x.toNat < 2 ^ n := x.isLt
  have h1 : x.toNat * 2 ^ lo < 2 ^ 64 :=
    calc x.toNat * 2 ^ lo < 2 ^ n * 2 ^ lo := Nat.mul_lt_mul_of_pos_right hx (Nat.two_pow_pos lo)
      _ = 2 ^ (n + lo) := (Nat.pow_add 2 n lo).symm
      _ ≤ 2 ^ 64 := Nat.pow_le_pow_right (by decide) (by omega)
  have h2 : x.toNat < 2 ^ 64 := Nat.lt_of_lt_of_le hx (Nat.pow_le_pow_right (by decide) (by omega))
  rw [placed, BitVec.toNat_shiftLeft, BitVec.toNat_setWidth, Nat.mod_eq_of_lt h2, Nat.shiftLeft_eq, Nat.mod_eq_of_lt h1]

/-- Words with no common bit add up. -/
theorem or_toNat_of_disjoint {n : Nat} {a b : BitVec n} (h : a &&& b = 0#n) : (a ||| b).toNat = a.toNat + b.toNat := by
  rw [← BitVec.add_eq_or_of_and_eq_zero a b h]
  exact BitVec.toNat_add_of_and_eq_zero h

/-- Fields at different bits have no common bit. -/
theorem placed_disjoint {n n' lo lo' : Nat} (x : BitVec n) (y : BitVec n') (h : lo + n ≤ lo' ∨ lo' + n' ≤ lo) :
    placed lo x &&& placed lo' y = 0#64 :=
  placed_and_mask lo x _ (read_placed_other lo' lo y (by omega))

end Sys2Proof
end

