-- ==== Sys2Proof/Laws/State.lean ====
section
/-! SUPPORT. One lemma per field per named update of State, so that no proof unfolds a record update. -/
namespace Sys2Proof.Machine

@[simp] theorem setResult_params (v : BitVec 32) (s : State) : (setResult v s).params = s.params := rfl
@[simp] theorem setResult_mem (v : BitVec 32) (s : State) : (setResult v s).mem = s.mem := rfl
@[simp] theorem setResult_result (v : BitVec 32) (s : State) : (setResult v s).result = v := rfl
@[simp] theorem setResult_illegal (v : BitVec 32) (s : State) : (setResult v s).illegal = s.illegal := rfl
@[simp] theorem setResult_phase (v : BitVec 32) (s : State) : (setResult v s).phase = s.phase := rfl
@[simp] theorem setResult_events (v : BitVec 32) (s : State) : (setResult v s).events = s.events := rfl
@[simp] theorem setResult_cmds (v : BitVec 32) (s : State) : (setResult v s).cmds = s.cmds := rfl
@[simp] theorem setResult_inputs (v : BitVec 32) (s : State) : (setResult v s).inputs = s.inputs := rfl

@[simp] theorem setMem_params (m : Memory) (s : State) : (setMem m s).params = s.params := rfl
@[simp] theorem setMem_mem (m : Memory) (s : State) : (setMem m s).mem = m := rfl
@[simp] theorem setMem_result (m : Memory) (s : State) : (setMem m s).result = s.result := rfl
@[simp] theorem setMem_illegal (m : Memory) (s : State) : (setMem m s).illegal = s.illegal := rfl
@[simp] theorem setMem_phase (m : Memory) (s : State) : (setMem m s).phase = s.phase := rfl
@[simp] theorem setMem_events (m : Memory) (s : State) : (setMem m s).events = s.events := rfl
@[simp] theorem setMem_cmds (m : Memory) (s : State) : (setMem m s).cmds = s.cmds := rfl
@[simp] theorem setMem_inputs (m : Memory) (s : State) : (setMem m s).inputs = s.inputs := rfl

@[simp] theorem setPhase_params (ph : Phase) (s : State) : (setPhase ph s).params = s.params := rfl
@[simp] theorem setPhase_mem (ph : Phase) (s : State) : (setPhase ph s).mem = s.mem := rfl
@[simp] theorem setPhase_result (ph : Phase) (s : State) : (setPhase ph s).result = s.result := rfl
@[simp] theorem setPhase_illegal (ph : Phase) (s : State) : (setPhase ph s).illegal = s.illegal := rfl
@[simp] theorem setPhase_phase (ph : Phase) (s : State) : (setPhase ph s).phase = ph := rfl
@[simp] theorem setPhase_events (ph : Phase) (s : State) : (setPhase ph s).events = s.events := rfl
@[simp] theorem setPhase_cmds (ph : Phase) (s : State) : (setPhase ph s).cmds = s.cmds := rfl
@[simp] theorem setPhase_inputs (ph : Phase) (s : State) : (setPhase ph s).inputs = s.inputs := rfl

@[simp] theorem record_params (e : Event) (s : State) : (record e s).params = s.params := rfl
@[simp] theorem record_mem (e : Event) (s : State) : (record e s).mem = s.mem := rfl
@[simp] theorem record_result (e : Event) (s : State) : (record e s).result = s.result := rfl
@[simp] theorem record_illegal (e : Event) (s : State) : (record e s).illegal = s.illegal := rfl
@[simp] theorem record_phase (e : Event) (s : State) : (record e s).phase = s.phase := rfl
@[simp] theorem record_events (e : Event) (s : State) : (record e s).events = s.events ++ [e] := rfl
@[simp] theorem record_cmds (e : Event) (s : State) : (record e s).cmds = s.cmds := rfl
@[simp] theorem record_inputs (e : Event) (s : State) : (record e s).inputs = s.inputs := rfl

@[simp] theorem setCmds_params (ws : List CmdWord) (s : State) : (setCmds ws s).params = s.params := rfl
@[simp] theorem setCmds_mem (ws : List CmdWord) (s : State) : (setCmds ws s).mem = s.mem := rfl
@[simp] theorem setCmds_result (ws : List CmdWord) (s : State) : (setCmds ws s).result = s.result := rfl
@[simp] theorem setCmds_illegal (ws : List CmdWord) (s : State) : (setCmds ws s).illegal = s.illegal := rfl
@[simp] theorem setCmds_phase (ws : List CmdWord) (s : State) : (setCmds ws s).phase = s.phase := rfl
@[simp] theorem setCmds_events (ws : List CmdWord) (s : State) : (setCmds ws s).events = s.events := rfl
@[simp] theorem setCmds_cmds (ws : List CmdWord) (s : State) : (setCmds ws s).cmds = ws := rfl
@[simp] theorem setCmds_inputs (ws : List CmdWord) (s : State) : (setCmds ws s).inputs = s.inputs := rfl

@[simp] theorem setInputs_params (ls : List Lines) (s : State) : (setInputs ls s).params = s.params := rfl
@[simp] theorem setInputs_mem (ls : List Lines) (s : State) : (setInputs ls s).mem = s.mem := rfl
@[simp] theorem setInputs_result (ls : List Lines) (s : State) : (setInputs ls s).result = s.result := rfl
@[simp] theorem setInputs_illegal (ls : List Lines) (s : State) : (setInputs ls s).illegal = s.illegal := rfl
@[simp] theorem setInputs_phase (ls : List Lines) (s : State) : (setInputs ls s).phase = s.phase := rfl
@[simp] theorem setInputs_events (ls : List Lines) (s : State) : (setInputs ls s).events = s.events := rfl
@[simp] theorem setInputs_cmds (ls : List Lines) (s : State) : (setInputs ls s).cmds = s.cmds := rfl
@[simp] theorem setInputs_inputs (ls : List Lines) (s : State) : (setInputs ls s).inputs = ls := rfl

@[simp] theorem emitDisplay_params (s : State) : (emitDisplay s).params = s.params := rfl
@[simp] theorem emitDisplay_mem (s : State) : (emitDisplay s).mem = s.mem := rfl
@[simp] theorem emitDisplay_result (s : State) : (emitDisplay s).result = s.result := rfl
@[simp] theorem emitDisplay_illegal (s : State) : (emitDisplay s).illegal = s.illegal := rfl
@[simp] theorem emitDisplay_phase (s : State) : (emitDisplay s).phase = s.phase := rfl
@[simp] theorem emitDisplay_events (s : State) : (emitDisplay s).events = s.events ++ [.display (snapshot s.params s.mem)] := rfl
@[simp] theorem emitDisplay_cmds (s : State) : (emitDisplay s).cmds = s.cmds := rfl
@[simp] theorem emitDisplay_inputs (s : State) : (emitDisplay s).inputs = s.inputs := rfl

@[simp] theorem emitWait_params (ms : Half) (s : State) : (emitWait ms s).params = s.params := rfl
@[simp] theorem emitWait_mem (ms : Half) (s : State) : (emitWait ms s).mem = s.mem := rfl
@[simp] theorem emitWait_result (ms : Half) (s : State) : (emitWait ms s).result = s.result := rfl
@[simp] theorem emitWait_illegal (ms : Half) (s : State) : (emitWait ms s).illegal = s.illegal := rfl
@[simp] theorem emitWait_phase (ms : Half) (s : State) : (emitWait ms s).phase = s.phase := rfl
@[simp] theorem emitWait_events (ms : Half) (s : State) : (emitWait ms s).events = s.events ++ [.wait ms] := rfl
@[simp] theorem emitWait_cmds (ms : Half) (s : State) : (emitWait ms s).cmds = s.cmds := rfl
@[simp] theorem emitWait_inputs (ms : Half) (s : State) : (emitWait ms s).inputs = s.inputs := rfl

@[simp] theorem raiseIllegal_params (s : State) : (raiseIllegal s).params = s.params := rfl
@[simp] theorem raiseIllegal_mem (s : State) : (raiseIllegal s).mem = s.mem := rfl
@[simp] theorem raiseIllegal_result (s : State) : (raiseIllegal s).result = s.result := rfl
@[simp] theorem raiseIllegal_illegal (s : State) : (raiseIllegal s).illegal = true := rfl
@[simp] theorem raiseIllegal_phase (s : State) : (raiseIllegal s).phase = s.phase := rfl
@[simp] theorem raiseIllegal_events (s : State) : (raiseIllegal s).events = s.events := rfl
@[simp] theorem raiseIllegal_cmds (s : State) : (raiseIllegal s).cmds = s.cmds := rfl
@[simp] theorem raiseIllegal_inputs (s : State) : (raiseIllegal s).inputs = s.inputs := rfl

@[simp] theorem resetEngine_params (s : State) : (resetEngine s).params = s.params := rfl
@[simp] theorem resetEngine_mem (s : State) : (resetEngine s).mem = writeBytes [] 0 s.params.init := rfl
@[simp] theorem resetEngine_result (s : State) : (resetEngine s).result = 0 := rfl
@[simp] theorem resetEngine_illegal (s : State) : (resetEngine s).illegal = false := rfl
@[simp] theorem resetEngine_phase (s : State) : (resetEngine s).phase = .idle := rfl
@[simp] theorem resetEngine_events (s : State) : (resetEngine s).events = [] := rfl
@[simp] theorem resetEngine_cmds (s : State) : (resetEngine s).cmds = s.cmds := rfl
@[simp] theorem resetEngine_inputs (s : State) : (resetEngine s).inputs = s.inputs := rfl

@[simp] theorem takeSample_params (s : State) : (takeSample s).params = s.params := rfl
@[simp] theorem takeSample_mem (s : State) : (takeSample s).mem = s.mem := rfl
@[simp] theorem takeSample_result (s : State) : (takeSample s).result = s.result := rfl
@[simp] theorem takeSample_illegal (s : State) : (takeSample s).illegal = s.illegal := rfl
@[simp] theorem takeSample_phase (s : State) : (takeSample s).phase = s.phase := rfl
@[simp] theorem takeSample_events (s : State) : (takeSample s).events = s.events := rfl
@[simp] theorem takeSample_cmds (s : State) : (takeSample s).cmds = s.cmds := rfl
@[simp] theorem takeSample_inputs (s : State) : (takeSample s).inputs = laterInputs s.inputs := rfl

@[simp] theorem offerNext_params (w : CmdWord) (s : State) : (offerNext w s).params = s.params := rfl
@[simp] theorem offerNext_mem (w : CmdWord) (s : State) : (offerNext w s).mem = s.mem := rfl
@[simp] theorem offerNext_result (w : CmdWord) (s : State) : (offerNext w s).result = s.result := rfl
@[simp] theorem offerNext_illegal (w : CmdWord) (s : State) : (offerNext w s).illegal = s.illegal := rfl
@[simp] theorem offerNext_phase (w : CmdWord) (s : State) : (offerNext w s).phase = .idle := rfl
@[simp] theorem offerNext_events (w : CmdWord) (s : State) : (offerNext w s).events = s.events := rfl
@[simp] theorem offerNext_cmds (w : CmdWord) (s : State) : (offerNext w s).cmds = w :: s.cmds := rfl
@[simp] theorem offerNext_inputs (w : CmdWord) (s : State) : (offerNext w s).inputs = releaseReset s.inputs := rfl

@[simp] theorem finalDisplay_params (j : Job) (i : Nat) (s : State) : (finalDisplay j i s).params = s.params := rfl
@[simp] theorem finalDisplay_mem (j : Job) (i : Nat) (s : State) : (finalDisplay j i s).mem = s.mem := rfl
@[simp] theorem finalDisplay_result (j : Job) (i : Nat) (s : State) : (finalDisplay j i s).result = s.result := rfl
@[simp] theorem finalDisplay_illegal (j : Job) (i : Nat) (s : State) : (finalDisplay j i s).illegal = s.illegal := rfl
@[simp] theorem finalDisplay_phase (j : Job) (i : Nat) (s : State) : (finalDisplay j i s).phase = .run j i .awaitFinalDisplay := rfl
@[simp] theorem finalDisplay_events (j : Job) (i : Nat) (s : State) : (finalDisplay j i s).events = s.events ++ [.display (snapshot s.params s.mem)] := rfl
@[simp] theorem finalDisplay_cmds (j : Job) (i : Nat) (s : State) : (finalDisplay j i s).cmds = s.cmds := rfl
@[simp] theorem finalDisplay_inputs (j : Job) (i : Nat) (s : State) : (finalDisplay j i s).inputs = s.inputs := rfl

/-- Two states with the same eight fields are equal. -/
theorem state_ext {s t : State} (h1 : s.params = t.params) (h2 : s.mem = t.mem) (h3 : s.result = t.result)
    (h4 : s.illegal = t.illegal) (h5 : s.phase = t.phase) (h6 : s.events = t.events) (h7 : s.cmds = t.cmds)
    (h8 : s.inputs = t.inputs) : s = t := by
  cases s; cases t; simp_all

end Sys2Proof.Machine
end

