-- ==== Sys2Proof/Laws/Memory.lean ====
section
/-! SUPPORT. What the buffer operations read back, and that each keeps the canonical form and stays within the buffer. -/
namespace Sys2Proof.Machine

/-! ### Reading after writing; these hold of every memory, canonical or not -/

@[simp] theorem memRead_nil (a : Nat) : memRead [] a = unlistedByte := rfl

theorem memRead_erase (m : Memory) (a k : Nat) :
    memRead (memErase m a) k = if k = a then unlistedByte else memRead m k := by
  induction m with
  | nil => simp [memErase]
  | cons c m ih =>
    obtain ⟨j, b⟩ := c
    simp only [memErase] at ih
    by_cases hj : j = a
    · subst hj
      by_cases hk : k = j
      · subst hk; simpa [memErase] using ih
      · simp [memErase, ih, memRead, hk, Ne.symm hk]
    · by_cases hk : j = k
      · subst hk; simp [memErase, memRead, hj]
      · simp [memErase, memRead, hj, hk, ih]

theorem memRead_insert (m : Memory) (a k : Nat) (b : Byte) (h : ∀ c ∈ m, c.1 ≠ a) :
    memRead (memInsert a b m) k = if k = a then b else memRead m k := by
  induction m with
  | nil => by_cases hk : a = k <;> simp [memInsert, memRead, hk, eq_comm (a := k)]
  | cons c m ih =>
    obtain ⟨j, d⟩ := c
    have hj : j ≠ a := h (j, d) (by simp)
    have ih := ih (fun c hc => h c (by simp [hc]))
    by_cases hlt : a < j
    · by_cases hk : a = k
      · subst hk; simp [memInsert, hlt, memRead]
      · simp [memInsert, hlt, memRead, hk, eq_comm (a := k)]
    · by_cases hk : j = k
      · subst hk; simp [memInsert, hlt, memRead, hj]
      · simp [memInsert, hlt, memRead, hk, ih]

theorem memErase_misses (m : Memory) (a : Nat) : ∀ c ∈ memErase m a, c.1 ≠ a := by
  simp [memErase]

/-- A byte read after a byte write: the byte written at its address, and the byte before everywhere else. -/
theorem memRead_memWrite (m : Memory) (a k : Nat) (b : Byte) :
    memRead (memWrite m a b) k = if k = a then b else memRead m k := by
  unfold memWrite
  split
  · next h => rw [memRead_erase, h]
  · rw [memRead_insert _ _ _ _ (memErase_misses m a), memRead_erase]
    split <;> simp_all

@[simp] theorem memRead_memWrite_same (m : Memory) (a : Nat) (b : Byte) : memRead (memWrite m a b) a = b := by
  simp [memRead_memWrite]

theorem memRead_memWrite_ne (m : Memory) {a k : Nat} (b : Byte) (h : k ≠ a) :
    memRead (memWrite m a b) k = memRead m k := by
  simp [memRead_memWrite, h]

@[simp] theorem readBytes_length (m : Memory) (a n : Nat) : (readBytes m a n).length = n := by
  induction n generalizing a with
  | zero => rfl
  | succ n ih => simp [readBytes, ih]

theorem readBytes_getElem (m : Memory) (a n k : Nat) (h : k < (readBytes m a n).length) :
    (readBytes m a n)[k] = memRead m (a + k) := by
  induction n generalizing a k with
  | zero => simp at h
  | succ n ih =>
    cases k with
    | zero => rfl
    | succ k =>
      simp only [readBytes, List.getElem_cons_succ]
      rw [ih (a + 1) k (by simpa [readBytes] using h)]
      congr 1; omega

/-- Equal bytes at the same places are equal byte lists. -/
theorem readBytes_congr {m m' : Memory} {a n : Nat} (h : ∀ k, k < n → memRead m (a + k) = memRead m' (a + k)) :
    readBytes m a n = readBytes m' a n := by
  apply List.ext_getElem (by simp)
  intro k h1 h2
  rw [readBytes_getElem, readBytes_getElem]
  exact h k (by simpa using h1)

/-- A byte read after a run of byte writes. -/
theorem memRead_writeBytes (m : Memory) (a k : Nat) (bs : List Byte) :
    memRead (writeBytes m a bs) k = if a ≤ k then bs.getD (k - a) (memRead m k) else memRead m k := by
  induction bs generalizing m a with
  | nil => simp [writeBytes]
  | cons b bs ih =>
    rw [writeBytes, ih, memRead_memWrite]
    by_cases h1 : k = a
    · subst h1; simp
    · by_cases h2 : a ≤ k
      · obtain ⟨n, rfl⟩ : ∃ n, k = a + 1 + n := ⟨k - (a + 1), by omega⟩
        have : a + 1 + n - a = n + 1 := by omega
        rw [if_pos (Nat.le_add_right _ _), if_neg h1, if_pos h2, this, Nat.add_sub_cancel_left]
        simp
      · have : ¬ a + 1 ≤ k := by omega
        simp [h1, h2, this]

/-- Within the run, the byte of the list; outside it, the byte before. -/
theorem memRead_writeBytes_in (m : Memory) (a k : Nat) (bs : List Byte) (h1 : a ≤ k) (h2 : k - a < bs.length) :
    memRead (writeBytes m a bs) k = bs[k - a] := by
  simp [memRead_writeBytes, h1, h2]

theorem memRead_writeBytes_out (m : Memory) (a k : Nat) (bs : List Byte) (h : ¬ (a ≤ k ∧ k < a + bs.length)) :
    memRead (writeBytes m a bs) k = memRead m k := by
  rw [memRead_writeBytes]
  split
  · rw [List.getD_eq_default]; omega
  · rfl

/-- MoveBytes: the destination holds the source's old bytes, whatever the overlap; every other byte is as before (R49). -/
theorem memRead_moveBytes (m : Memory) (dst src len k : Nat) :
    memRead (moveBytes m dst src len) k =
      if dst ≤ k ∧ k < dst + len then memRead m (src + (k - dst)) else memRead m k := by
  unfold moveBytes
  split
  · next h =>
    rw [memRead_writeBytes_in _ _ _ _ h.1 (by simp; omega), readBytes_getElem]
  · next h => rw [memRead_writeBytes_out _ _ _ _ (by simpa using h)]

/-! ### Canonical form -/

theorem memErase_wf {m : Memory} (h : m.wf) (a : Nat) : (memErase m a).wf :=
  ⟨h.1.filter _, fun c hc => h.2 c (List.mem_of_mem_filter hc)⟩

theorem mem_memInsert {a : Nat} {b : Byte} {m : Memory} {c : Host.Cell} :
    c ∈ memInsert a b m ↔ c = (a, b) ∨ c ∈ m := by
  induction m with
  | nil => simp [memInsert]
  | cons d m ih =>
    obtain ⟨k, e⟩ := d
    by_cases h : a < k
    · simp [memInsert, h]
    · simp only [memInsert, h, if_false, List.mem_cons, ih]; tauto

theorem memInsert_wf {m : Memory} (h : m.wf) {a : Nat} {b : Byte} (hb : b ≠ unlistedByte) (ha : ∀ c ∈ m, c.1 ≠ a) :
    (memInsert a b m).wf := by
  refine ⟨?_, fun c hc => ?_⟩
  · have h1 := h.1
    clear h
    induction m with
    | nil => simp [memInsert]
    | cons d m ih =>
      obtain ⟨k, e⟩ := d
      rw [List.pairwise_cons] at h1
      have hk : k ≠ a := ha (k, e) (by simp)
      by_cases hlt : a < k
      · simp only [memInsert, hlt, if_true, List.pairwise_cons]
        refine ⟨fun c hc => ?_, h1⟩
        rcases List.mem_cons.1 hc with rfl | hc
        · exact hlt
        · exact Nat.lt_trans hlt (h1.1 c hc)
      · simp only [memInsert, hlt, if_false, List.pairwise_cons]
        refine ⟨fun c hc => ?_, ih (fun c hc => ha c (by simp [hc])) h1.2⟩
        rcases mem_memInsert.1 hc with rfl | hc
        · show k < a; omega
        · exact h1.1 c hc
  · rcases mem_memInsert.1 hc with rfl | hc
    · exact hb
    · exact h.2 c hc

/-- Every byte write keeps the canonical form. -/
theorem memWrite_wf {m : Memory} (h : m.wf) (a : Nat) (b : Byte) : (memWrite m a b).wf := by
  unfold memWrite
  split
  · exact memErase_wf h a
  · next hb => exact memInsert_wf (memErase_wf h a) hb (memErase_misses m a)

theorem writeBytes_wf {m : Memory} (h : m.wf) (a : Nat) (bs : List Byte) : (writeBytes m a bs).wf := by
  induction bs generalizing m a with
  | nil => exact h
  | cons b bs ih => exact ih (memWrite_wf h a b) (a + 1)

theorem moveBytes_wf {m : Memory} (h : m.wf) (dst src len : Nat) : (moveBytes m dst src len).wf :=
  writeBytes_wf h _ _

theorem pixWrite_wf {m : Memory} (h : m.wf) (p : Params) (i : Nat) (c : Color) : (pixWrite p i c m).wf := by
  unfold pixWrite
  cases p.layout
  · exact memWrite_wf (memWrite_wf (memWrite_wf h _ _) _ _) _ _
  · exact memWrite_wf (memWrite_wf (memWrite_wf (memWrite_wf h _ _) _ _) _ _) _ _

theorem pixLoop_wf {m : Memory} (h : m.wf) (p : Params) (f : Nat → Color) (lo n : Nat) : (pixLoop p f lo n m).wf := by
  induction n generalizing m lo with
  | zero => exact h
  | succ n ih => exact ih (pixWrite_wf h p lo (f lo)) (lo + 1)

/-- Two canonical memories that read alike are equal. -/
theorem memory_ext {m m' : Memory} (h : m.wf) (h' : m'.wf) (hr : ∀ a, memRead m a = memRead m' a) : m = m' := by
  have low : ∀ {m : Memory} {k : Nat}, (∀ c ∈ m, k < c.1) → memRead m k = unlistedByte := by
    intro m k hm
    induction m with
    | nil => rfl
    | cons c m ih =>
      obtain ⟨j, b⟩ := c
      have : k < j := hm (j, b) (by simp)
      rw [memRead, if_neg (by omega), ih (fun c hc => hm c (by simp [hc]))]
  have tail : ∀ {k : Nat} {b : Byte} {m : Memory}, Memory.wf ((k, b) :: m) → m.wf ∧ (∀ c ∈ m, k < c.1) ∧ b ≠ unlistedByte := by
    intro k b m hm
    obtain ⟨h1, h2⟩ := hm
    rw [List.pairwise_cons] at h1
    exact ⟨⟨h1.2, fun c hc => h2 c (by simp [hc])⟩, h1.1, h2 (k, b) (by simp)⟩
  induction m generalizing m' with
  | nil =>
    cases m' with
    | nil => rfl
    | cons c m' =>
      obtain ⟨k, b⟩ := c
      have := hr k
      simp [memRead] at this
      exact absurd this.symm (tail h').2.2
  | cons c m ih =>
    obtain ⟨k, b⟩ := c
    obtain ⟨hm, hlow, hb⟩ := tail h
    cases m' with
    | nil =>
      have := hr k
      simp [memRead] at this
      exact absurd this hb
    | cons c' m' =>
      obtain ⟨k', b'⟩ := c'
      obtain ⟨hm', hlow', hb'⟩ := tail h'
      have hkk : k = k' := by
        rcases Nat.lt_trichotomy k k' with hlt | heq | hgt
        · have := hr k
          rw [memRead, if_pos rfl, memRead, if_neg (by omega), low (fun c hc => by have := hlow' c hc; omega)] at this
          exact absurd this hb
        · exact heq
        · have := hr k'
          rw [memRead, if_neg (by omega), memRead, if_pos rfl, low (fun c hc => by have := hlow c hc; omega)] at this
          exact absurd this.symm hb'
      subst hkk
      have hbb : b = b' := by simpa [memRead] using hr k
      subst hbb
      congr 1
      refine ih hm hm' fun a => ?_
      by_cases ha : k = a
      · subst ha; rw [low hlow, low hlow']
      · simpa [memRead, ha] using hr a

/-! ### Staying within the buffer -/

theorem memWrite_bounded {m : Memory} {n : Nat} (h : ∀ c ∈ m, c.1 < n) {a : Nat} (ha : a < n) (b : Byte) :
    ∀ c ∈ memWrite m a b, c.1 < n := by
  intro c hc
  unfold memWrite at hc
  split at hc
  · exact h c (List.mem_of_mem_filter hc)
  · rcases mem_memInsert.1 hc with rfl | hc
    · exact ha
    · exact h c (List.mem_of_mem_filter hc)

theorem writeBytes_bounded {m : Memory} {n : Nat} (h : ∀ c ∈ m, c.1 < n) {a : Nat} (bs : List Byte)
    (ha : a + bs.length ≤ n) : ∀ c ∈ writeBytes m a bs, c.1 < n := by
  induction bs generalizing m a with
  | nil => exact h
  | cons b bs ih =>
    simp only [List.length_cons] at ha
    exact ih (memWrite_bounded h (by omega) b) (by omega)

/-- A byte the buffer does not list reads as the unlisted byte. -/
theorem memRead_of_bounded {m : Memory} {n a : Nat} (h : ∀ c ∈ m, c.1 < n) (ha : n ≤ a) : memRead m a = unlistedByte := by
  induction m with
  | nil => rfl
  | cons c m ih =>
    obtain ⟨k, b⟩ := c
    have : k < n := h (k, b) (by simp)
    rw [memRead, if_neg (by omega), ih (fun c hc => h c (by simp [hc]))]

end Sys2Proof.Machine
end

