-- ==== Sys2Proof/Laws/Pixels.lean ====
section
/-! SUPPORT. Packed colors, and what the channel multiplexer and its loops leave in the buffer (spec/43_channel_multiplexer.md R130, R131, R136). -/
namespace Sys2Proof.Machine

/-! ### Packed colors -/

@[simp] theorem chanW_pack (w r g b : Byte) : chanW (packColor w r g b) = w := by
  apply BitVec.eq_of_getLsbD_eq; intro i hi
  have : i = 0 ∨ i = 1 ∨ i = 2 ∨ i = 3 ∨ i = 4 ∨ i = 5 ∨ i = 6 ∨ i = 7 := by omega
  rcases this with rfl | rfl | rfl | rfl | rfl | rfl | rfl | rfl <;> simp [chanW, packColor]

@[simp] theorem chanR_pack (w r g b : Byte) : chanR (packColor w r g b) = r := by
  apply BitVec.eq_of_getLsbD_eq; intro i hi
  have : i = 0 ∨ i = 1 ∨ i = 2 ∨ i = 3 ∨ i = 4 ∨ i = 5 ∨ i = 6 ∨ i = 7 := by omega
  rcases this with rfl | rfl | rfl | rfl | rfl | rfl | rfl | rfl <;> simp [chanR, packColor]

@[simp] theorem chanG_pack (w r g b : Byte) : chanG (packColor w r g b) = g := by
  apply BitVec.eq_of_getLsbD_eq; intro i hi
  have : i = 0 ∨ i = 1 ∨ i = 2 ∨ i = 3 ∨ i = 4 ∨ i = 5 ∨ i = 6 ∨ i = 7 := by omega
  rcases this with rfl | rfl | rfl | rfl | rfl | rfl | rfl | rfl <;> simp [chanG, packColor]

@[simp] theorem chanB_pack (w r g b : Byte) : chanB (packColor w r g b) = b := by
  apply BitVec.eq_of_getLsbD_eq; intro i hi
  have : i = 0 ∨ i = 1 ∨ i = 2 ∨ i = 3 ∨ i = 4 ∨ i = 5 ∨ i = 6 ∨ i = 7 := by omega
  rcases this with rfl | rfl | rfl | rfl | rfl | rfl | rfl | rfl <;> simp [chanB, packColor]

/-- Two colors with the same four channels are equal. -/
theorem color_ext {c d : Color} (hw : chanW c = chanW d) (hr : chanR c = chanR d) (hg : chanG c = chanG d)
    (hb : chanB c = chanB d) : c = d := by
  apply BitVec.eq_of_getLsbD_eq
  intro i hi
  have key : ∀ (n : Nat), c.extractLsb' n 8 = d.extractLsb' n 8 → n ≤ i → i < n + 8 → c.getLsbD i = d.getLsbD i := by
    intro n h h1 h2
    have := congrArg (fun x => x.getLsbD (i - n)) h
    simpa [show i - n < 8 by omega, show n + (i - n) = i by omega] using this
  by_cases h1 : i < 8
  · exact key 0 hb (by omega) (by omega)
  · by_cases h2 : i < 16
    · exact key 8 hg (by omega) (by omega)
    · by_cases h3 : i < 24
      · exact key 16 hr (by omega) (by omega)
      · exact key 24 hw (by omega) (by omega)

/-! ### Legal channel orders -/

theorem stride_pos (p : Params) : 0 < p.stride := by
  unfold Params.stride; cases p.layout <;> decide

/-- What R136 gives of a legal order: offsets inside the pixel, no two equal. -/
theorem order_legal_offsets {l : Layout} {o : ChOrder} (h : o.legal l = true) :
    (o.rOff.val < l.stride ∧ o.gOff.val < l.stride ∧ o.bOff.val < l.stride) ∧
    (o.rOff.val ≠ o.gOff.val ∧ o.rOff.val ≠ o.bOff.val ∧ o.gOff.val ≠ o.bOff.val) ∧
    (l = .rgbw → o.wOff.val < l.stride ∧ o.rOff.val ≠ o.wOff.val ∧ o.gOff.val ≠ o.wOff.val ∧ o.bOff.val ≠ o.wOff.val) := by
  cases l
  · simp [ChOrder.legal, Fin.ext_iff] at h
    simp [Layout.stride]; omega
  · simp [ChOrder.legal, Fin.ext_iff] at h
    have := o.rOff.isLt; have := o.gOff.isLt; have := o.bOff.isLt; have := o.wOff.isLt
    simp [Layout.stride]; omega

theorem legal_order {p : Params} (h : p.legal = true) : p.order.legal p.layout = true := by
  simp [Params.legal] at h; exact h.1.2

theorem legal_npix {p : Params} (h : p.legal = true) : p.npix ≤ 65535 := by
  simp [Params.legal] at h; exact h.1.1

theorem legal_init {p : Params} (h : p.legal = true) : p.init.length = p.bufLen := by
  simp [Params.legal] at h; exact h.2

/-! ### One pixel -/

/-- The byte at offset `k` of a pixel that holds `c`, if `PixWrite` writes one there (R130). -/
def pixByte (p : Params) (c : Color) (k : Nat) : Option Byte :=
  if p.layout = .rgbw ∧ k = p.order.wOff.val then some (chanW c)
  else if k = p.order.bOff.val then some (chanB c)
  else if k = p.order.gOff.val then some (chanG c)
  else if k = p.order.rOff.val then some (chanR c)
  else none

/-- Every byte after `PixWrite`: the pixel's own by `pixByte`, all others as before. -/
theorem memRead_pixWrite (p : Params) (i : Nat) (c : Color) (m : Memory) (a : Nat) :
    memRead (pixWrite p i c m) a =
      if i * p.stride ≤ a then (pixByte p c (a - i * p.stride)).getD (memRead m a) else memRead m a := by
  have key : ∀ o : Nat, (a = i * p.stride + o) ↔ (i * p.stride ≤ a ∧ a - i * p.stride = o) := by intro o; omega
  unfold pixWrite pixByte
  by_cases hle : i * p.stride ≤ a
  · cases hl : p.layout <;>
      simp only [memRead_memWrite, key, hle, true_and, if_true, false_and, if_false, reduceCtorEq] <;>
      (repeat' split) <;> simp_all
  · cases hl : p.layout <;> simp [memRead_memWrite, key, hle]

/-- A pixel's bytes are all below the next pixel's, so a whole pixel write touches no other pixel (R130). -/
theorem memRead_pixWrite_outside {p : Params} (h : p.legal = true) (i : Nat) (c : Color) (m : Memory) {a : Nat}
    (ha : ¬ (i * p.stride ≤ a ∧ a < i * p.stride + p.stride)) : memRead (pixWrite p i c m) a = memRead m a := by
  rw [memRead_pixWrite]
  split
  · next hle =>
    obtain ⟨h1, -, h3⟩ := order_legal_offsets (legal_order h)
    have hs : p.stride = p.layout.stride := rfl
    have : pixByte p c (a - i * p.stride) = none := by
      unfold pixByte
      repeat' split
      · next hw => have := h3 hw.1; omega
      · omega
      · omega
      · omega
      · rfl
    simp [this]
  · rfl

/-- A written pixel holds the color (R130). -/
theorem pixWrite_holds {p : Params} (h : p.legal = true) (i : Nat) (c : Color) (m : Memory) :
    PixelHolds p (pixWrite p i c m) i c := by
  obtain ⟨-, ⟨h1, h2, h3⟩, h4⟩ := order_legal_offsets (legal_order h)
  refine ⟨?_, ?_, ?_, fun hl => ?_⟩ <;> rw [memRead_pixWrite, if_pos (by omega), Nat.add_sub_cancel_left]
  · by_cases hl : p.layout = .rgbw
    · have := h4 hl; simp [pixByte, h1, h2, this]
    · simp [pixByte, h1, h2, hl]
  · by_cases hl : p.layout = .rgbw
    · have := h4 hl; simp [pixByte, h3, this]
    · simp [pixByte, h3, hl]
  · by_cases hl : p.layout = .rgbw
    · have := h4 hl; simp [pixByte, this]
    · simp [pixByte, hl]
  · simp [pixByte, hl]

/-- A pixel that holds a color and whose bytes another memory reads alike holds it there too. -/
theorem PixelHolds.of_same {p : Params} (h : p.legal = true) {m m' : Memory} {i j : Nat} {c : Color}
    (hh : PixelHolds p m i c) (hs : PixelSame p m' j m i) : PixelHolds p m' j c := by
  obtain ⟨⟨h1, h2, h3⟩, -, h4⟩ := order_legal_offsets (legal_order h)
  obtain ⟨a, b, c', d⟩ := hh
  refine ⟨?_, ?_, ?_, fun hl => ?_⟩
  · rw [hs _ h1, a]
  · rw [hs _ h2, b]
  · rw [hs _ h3, c']
  · rw [hs _ (h4 hl).1, d hl]

/-- Reading a pixel that holds a color (R131). -/
theorem pixRead_of_holds {p : Params} {m : Memory} {i : Nat} {c : Color} (h : PixelHolds p m i c) :
    pixRead p m i = storedColor p c := by
  obtain ⟨hr, hg, hb, hw⟩ := h
  unfold pixRead storedColor
  cases hl : p.layout
  · simp only [hr, hg, hb]
    apply color_ext <;> simp only [chanW_pack, chanR_pack, chanG_pack, chanB_pack] <;>
      (apply BitVec.eq_of_getLsbD_eq; intro k hk;
       have : k = 0 ∨ k = 1 ∨ k = 2 ∨ k = 3 ∨ k = 4 ∨ k = 5 ∨ k = 6 ∨ k = 7 := by omega
       rcases this with rfl | rfl | rfl | rfl | rfl | rfl | rfl | rfl <;>
         simp [chanW, chanR, chanG, chanB])
  · simp only [hr, hg, hb, hw hl]
    exact color_ext (by simp) (by simp) (by simp) (by simp)

theorem pixWrite_bounded {p : Params} (h : p.legal = true) {m : Memory} (hm : ∀ x ∈ m, x.1 < p.bufLen) {i : Nat}
    (hi : i < p.npix) (c : Color) : ∀ x ∈ pixWrite p i c m, x.1 < p.bufLen := by
  obtain ⟨⟨h1, h2, h3⟩, -, h4⟩ := order_legal_offsets (legal_order h)
  have hs : p.stride = p.layout.stride := rfl
  have hb : i * p.stride + p.stride ≤ p.bufLen := by
    have := Nat.mul_le_mul_right p.stride (show i + 1 ≤ p.npix from hi)
    rw [Nat.add_mul, Nat.one_mul] at this
    exact this
  unfold pixWrite
  cases hl : p.layout
  · exact memWrite_bounded (memWrite_bounded (memWrite_bounded hm (by omega) _) (by omega) _) (by omega) _
  · have := h4 hl
    exact memWrite_bounded (memWrite_bounded (memWrite_bounded (memWrite_bounded hm (by omega) _) (by omega) _) (by omega) _)
      (by omega) _

/-! ### Loops of pixel writes -/

theorem pixLoop_zero (p : Params) (f : Nat → Color) (lo : Nat) (m : Memory) : pixLoop p f lo 0 m = m := rfl

/-- The last write of a loop comes last (R14). -/
theorem pixLoop_succ (p : Params) (f : Nat → Color) (lo n : Nat) (m : Memory) :
    pixLoop p f lo (n + 1) m = pixWrite p (lo + n) (f (lo + n)) (pixLoop p f lo n m) := by
  induction n generalizing lo m with
  | zero => rfl
  | succ n ih =>
    rw [pixLoop, ih]
    simp only [pixLoop, show lo + 1 + n = lo + (n + 1) by omega]

theorem pixel_before {p : Params} {i j : Nat} (h : i < j) : i * p.stride + p.stride ≤ j * p.stride := by
  have := Nat.mul_le_mul_right p.stride (show i + 1 ≤ j from h)
  rwa [Nat.add_mul, Nat.one_mul] at this

/-- Bytes outside the loop's pixels are as before. -/
theorem memRead_pixLoop_outside {p : Params} (h : p.legal = true) (f : Nat → Color) (lo n : Nat) (m : Memory) {a : Nat}
    (ha : a < lo * p.stride ∨ (lo + n) * p.stride ≤ a) : memRead (pixLoop p f lo n m) a = memRead m a := by
  induction n with
  | zero => rfl
  | succ n ih =>
    have hn := pixel_before (p := p) (show lo + n < lo + (n + 1) by omega)
    have hlo := Nat.mul_le_mul_right p.stride (show lo ≤ lo + n by omega)
    rw [pixLoop_succ, memRead_pixWrite_outside h _ _ _ (by omega), ih (by omega)]

/-- Every pixel of the loop holds its color. -/
theorem pixLoop_holds {p : Params} (h : p.legal = true) (f : Nat → Color) (lo n : Nat) (m : Memory) {i : Nat}
    (h1 : lo ≤ i) (h2 : i < lo + n) : PixelHolds p (pixLoop p f lo n m) i (f i) := by
  induction n with
  | zero => omega
  | succ n ih =>
    rw [pixLoop_succ]
    by_cases hi : i = lo + n
    · subst hi; exact pixWrite_holds h _ _ _
    · refine (ih (by omega)).of_same h fun k hk => ?_
      have := pixel_before (p := p) (show i < lo + n by omega)
      exact memRead_pixWrite_outside h _ _ _ (by omega)

theorem pixLoop_bounded {p : Params} (h : p.legal = true) {m : Memory} (hm : ∀ x ∈ m, x.1 < p.bufLen) (f : Nat → Color)
    {lo n : Nat} (hn : lo + n ≤ p.npix) : ∀ x ∈ pixLoop p f lo n m, x.1 < p.bufLen := by
  induction n with
  | zero => exact hm
  | succ n ih => rw [pixLoop_succ]; exact pixWrite_bounded h (ih (by omega)) (by omega) _

@[simp] theorem snapshot_length (p : Params) (m : Memory) : (snapshot p m).length = p.bufLen := by
  simp [snapshot]

theorem snapshot_getElem (p : Params) (m : Memory) (k : Nat) (h : k < (snapshot p m).length) :
    (snapshot p m)[k] = memRead m k := by
  simp [snapshot, readBytes_getElem]

end Sys2Proof.Machine
end

