-- ==== Sys2Proof/Laws/Step.lean ====
section
/-! SUPPORT. Everything a step and a command can do, said once: one equation per case of `step`, its inversion, the inversion of `exec`, and the cases of the wipe stages. -/
namespace Sys2Proof.Machine

open Host (Outcome)

/-! ### One equation per case of a step -/

theorem step_reset {s : State} (h : (currentLines s).rst = true) : step s = .next (resetEngine (takeSample s)) := by
  simp [step, h]

theorem step_run {s : State} {job : Job} {i : Nat} {stage : Stage} (h : (currentLines s).rst = false)
    (hp : s.phase = .run job i stage) : step s = .next (stageStep job i stage (currentLines s) (takeSample s)) := by
  simp [step, h, hp]

theorem step_idle {s : State} (h : (currentLines s).rst = false) (hp : s.phase = .idle) (hc : s.cmds = []) :
    step s = .next (takeSample s) := by
  simp [step, h, hp, hc]

theorem step_command {s : State} {w : CmdWord} {ws : List CmdWord} {i : Instr} (h : (currentLines s).rst = false)
    (hp : s.phase = .idle) (hc : s.cmds = w :: ws) (hd : decodeWord w = .ok i) :
    step s = exec i (setCmds ws (takeSample s)) := by
  simp [step, h, hp, hc, hd]

theorem step_illegal {s : State} {w : CmdWord} {ws : List CmdWord} {e : Illegal} (h : (currentLines s).rst = false)
    (hp : s.phase = .idle) (hc : s.cmds = w :: ws) (hd : decodeWord w = .error e) :
    step s = .next (raiseIllegal (setCmds ws (takeSample s))) := by
  simp [step, h, hp, hc, hd]

/-- Every way a step can answer. -/
theorem step_cases {s : State} {o : Outcome State Fault Refusal} (h : step s = o) :
    ((currentLines s).rst = true ∧ o = .next (resetEngine (takeSample s))) ∨
    ((currentLines s).rst = false ∧ ∃ job i stage, s.phase = .run job i stage ∧
      o = .next (stageStep job i stage (currentLines s) (takeSample s))) ∨
    ((currentLines s).rst = false ∧ s.phase = .idle ∧ s.cmds = [] ∧ o = .next (takeSample s)) ∨
    ((currentLines s).rst = false ∧ s.phase = .idle ∧ ∃ w ws i, s.cmds = w :: ws ∧ decodeWord w = .ok i ∧
      o = exec i (setCmds ws (takeSample s))) ∨
    ((currentLines s).rst = false ∧ s.phase = .idle ∧ ∃ w ws e, s.cmds = w :: ws ∧ decodeWord w = .error e ∧
      o = .next (raiseIllegal (setCmds ws (takeSample s)))) := by
  subst h
  cases hr : (currentLines s).rst
  · cases hp : s.phase with
    | run job i stage => exact .inr (.inl ⟨rfl, job, i, stage, rfl, step_run hr hp⟩)
    | idle =>
      cases hc : s.cmds with
      | nil => exact .inr (.inr (.inl ⟨rfl, rfl, rfl, step_idle hr hp hc⟩))
      | cons w ws =>
        cases hd : decodeWord w with
        | ok i => exact .inr (.inr (.inr (.inl ⟨rfl, rfl, w, ws, i, rfl, hd, step_command hr hp hc hd⟩)))
        | error e => exact .inr (.inr (.inr (.inr ⟨rfl, rfl, w, ws, e, rfl, hd, step_illegal hr hp hc hd⟩)))
  · exact .inl ⟨rfl, step_reset hr⟩

/-! ### The stages of a command in flight -/

/-- What writes and displays a pixel of an animated wipe, or ends the loop. -/
theorem wipePixel_cases (job : Job) (f : Nat → Color) (i : Nat) (s : State) :
    (i < s.params.npix ∧ wipePixel job f i s =
      setPhase (.run job (i + 1) .awaitDisplay) (emitDisplay (setMem (pixWrite s.params i (f i) s.mem) s))) ∨
    (s.params.npix ≤ i ∧ wipePixel job f i s = setPhase .idle s) := by
  unfold wipePixel
  split
  · next h => exact .inl ⟨h, rfl⟩
  · next h => exact .inr ⟨by omega, rfl⟩

/-- The color a command in flight gives pixel `i`; SHOW gives none. -/
def jobColor (npix : Nat) : Job → Option (Nat → Color)
  | .wipes c _ => some (fun _ => c)
  | .wiper sh _ => some (rainbowColor npix sh)
  | .showBuf => none

theorem writeStage_eq (job : Job) (i : Nat) (s : State) :
    writeStage job i s =
      match jobColor s.params.npix job with
      | some f => wipePixel job f i s
      | none => finalDisplay job i s := by
  cases job <;> rfl

/-- Everything a step of a command in flight can do: hold, complete, issue the Wait, write and display the next
pixel, or (SHOW, which R27 allows in no such stage) display. -/
theorem stageStep_cases (job : Job) (i : Nat) (stage : Stage) (l : Lines) (s : State) :
    (stageStep job i stage l s = s ∧
      (stage = .awaitDisplay ∧ l.dispAck = false ∨ stage = .awaitFinalDisplay ∧ l.dispAck = false ∨
        stage = .awaitWait ∧ l.waitAck = false)) ∨
    (stageStep job i stage l s = setPhase .idle s ∧
      (stage = .awaitFinalDisplay ∧ l.dispAck = true ∨ stage = .awaitDisplay ∧ l.dispAck = true ∧ job.delay = 0 ∨
        stage = .awaitWait ∧ l.waitAck = true ∧ s.params.npix ≤ i ∨ stage = .write ∧ s.params.npix ≤ i)) ∨
    (stage = .awaitDisplay ∧ l.dispAck = true ∧ job.delay ≠ 0 ∧
      stageStep job i stage l s = setPhase (.run job i .awaitWait) (emitWait job.delay s)) ∨
    ((stage = .write ∨ stage = .awaitWait ∧ l.waitAck = true) ∧ i < s.params.npix ∧
      ∃ f, jobColor s.params.npix job = some f ∧ stageStep job i stage l s =
        setPhase (.run job (i + 1) .awaitDisplay) (emitDisplay (setMem (pixWrite s.params i (f i) s.mem) s))) ∨
    (job = .showBuf ∧ (stage = .write ∨ stage = .awaitWait ∧ l.waitAck = true) ∧
      stageStep job i stage l s = finalDisplay job i s) := by
  have hw : (stage = .write ∨ stage = .awaitWait ∧ l.waitAck = true) →
      stageStep job i stage l s = writeStage job i s := by
    rintro (rfl | ⟨rfl, h⟩)
    · rfl
    · simp [stageStep, h]
  have hwrite : (stage = .write ∨ stage = .awaitWait ∧ l.waitAck = true) → ∀ f, jobColor s.params.npix job = some f →
      (i < s.params.npix ∧ stageStep job i stage l s =
        setPhase (.run job (i + 1) .awaitDisplay) (emitDisplay (setMem (pixWrite s.params i (f i) s.mem) s))) ∨
      (s.params.npix ≤ i ∧ stageStep job i stage l s = setPhase .idle s) := by
    intro h f hf
    have : stageStep job i stage l s = wipePixel job f i s := by rw [hw h, writeStage_eq, hf]
    rw [this]
    exact wipePixel_cases job f i s
  by_cases hst : stage = .write ∨ stage = .awaitWait ∧ l.waitAck = true
  · cases hf : jobColor s.params.npix job with
    | none =>
      have hj : job = .showBuf := by cases job <;> simp_all [jobColor]
      exact .inr (.inr (.inr (.inr ⟨hj, hst, by rw [hw hst, writeStage_eq, hf]⟩)))
    | some f =>
      rcases hwrite hst f hf with ⟨h1, h2⟩ | ⟨h1, h2⟩
      · exact .inr (.inr (.inr (.inl ⟨hst, h1, f, rfl, h2⟩)))
      · refine .inr (.inl ⟨h2, ?_⟩)
        rcases hst with h | ⟨h, h'⟩
        · exact .inr (.inr (.inr ⟨h, h1⟩))
        · exact .inr (.inr (.inl ⟨h, h', h1⟩))
  · cases stage with
    | write => simp at hst
    | awaitDisplay =>
      cases ha : l.dispAck
      · exact .inl ⟨by simp [stageStep, ha], .inl ⟨rfl, rfl⟩⟩
      · by_cases hd : job.delay = 0
        · exact .inr (.inl ⟨by simp only [stageStep, ha, displayDone, hd, if_true], .inr (.inl ⟨rfl, rfl, hd⟩)⟩)
        · exact .inr (.inr (.inl ⟨rfl, rfl, hd, by simp only [stageStep, ha, displayDone, hd, if_true, if_false]⟩))
    | awaitWait =>
      have ha : l.waitAck = false := by simpa using hst
      exact .inl ⟨by simp [stageStep, ha], .inr (.inr ⟨rfl, ha⟩)⟩
    | awaitFinalDisplay =>
      cases ha : l.dispAck
      · exact .inl ⟨by simp [stageStep, ha], .inr (.inl ⟨rfl, rfl⟩)⟩
      · exact .inr (.inl ⟨by simp [stageStep, ha], .inl ⟨rfl, rfl⟩⟩)

/-- A step of a command in flight leaves the parameters, the host-readable registers but `BUSY`, and the inputs. -/
theorem stageStep_frame (job : Job) (i : Nat) (stage : Stage) (l : Lines) (s : State) :
    OnlyDisplays s (stageStep job i stage l s) := by
  rcases stageStep_cases job i stage l s with ⟨h, -⟩ | ⟨h, -⟩ | ⟨-, -, -, h⟩ | ⟨-, -, f, -, h⟩ | ⟨-, -, h⟩ <;> rw [h] <;>
    exact ⟨rfl, rfl, rfl, rfl, rfl⟩

/-- What `WipeSequence` does up to its first hold. -/
theorem wipeSequence_cases (job : Job) (f : Nat → Color) (s : State) :
    (s.params.npix = 0 ∧ wipeSequence job f s = s) ∨
    (0 < s.params.npix ∧ job.delay = 0 ∧ wipeSequence job f s =
      finalDisplay job s.params.npix (setMem (pixLoop s.params f 0 s.params.npix s.mem) s)) ∨
    (0 < s.params.npix ∧ job.delay ≠ 0 ∧ wipeSequence job f s =
      setPhase (.run job 1 .awaitDisplay) (emitDisplay (setMem (pixWrite s.params 0 (f 0) s.mem) s))) := by
  unfold wipeSequence wipePixel
  by_cases h0 : s.params.npix = 0
  · exact .inl ⟨h0, by simp [h0]⟩
  · have hpos : 0 < s.params.npix := by omega
    by_cases hd : job.delay = 0
    · exact .inr (.inl ⟨hpos, hd, by simp [h0, hd]⟩)
    · exact .inr (.inr ⟨hpos, hd, by rw [if_neg h0, if_neg hd, if_pos hpos]⟩)

/-- A wipe leaves the parameters, the host-readable registers but `BUSY`, and the inputs. -/
theorem wipeSequence_frame (job : Job) (f : Nat → Color) (s : State) : OnlyDisplays s (wipeSequence job f s) := by
  rcases wipeSequence_cases job f s with ⟨-, h⟩ | ⟨-, -, h⟩ | ⟨-, -, h⟩ <;> rw [h] <;> exact ⟨rfl, rfl, rfl, rfl, rfl⟩

/-! ### Everything a command can do -/

/-- Every next state a command can answer. -/
theorem exec_cases {i : Instr} {s t : State} (h : exec i s = .next t) :
    t = s ∨ (∃ v, t = setResult v s) ∨
    (∃ n c, i = .setpix n c ∧ n.toNat < s.params.npix ∧ t = setMem (pixWrite s.params n.toNat c s.mem) s) ∨
    (∃ n c, i = .scrlf n c ∧ 0 < reducedAmount s.params.npix n ∧
      t = setMem (scrolledForward s.params (reducedAmount s.params.npix n) c s.mem) s) ∨
    (∃ n c, i = .scrlb n c ∧ 0 < reducedAmount s.params.npix n ∧
      t = setMem (scrolledBackward s.params (reducedAmount s.params.npix n) c s.mem) s) ∨
    (∃ job f, jobColor s.params.npix job = some f ∧ i = job.instr ∧ t = wipeSequence job f s) ∨
    (i = .showBuf ∧ t = finalDisplay .showBuf 0 s) := by
  cases i with
  | nop => exact .inl (by simpa [exec, execNop] using h.symm)
  | pack w r g b => exact .inr (.inl ⟨_, by simpa [exec, execPack] using h.symm⟩)
  | getw c => exact .inr (.inl ⟨_, by simpa [exec, execGetw] using h.symm⟩)
  | getr c => exact .inr (.inl ⟨_, by simpa [exec, execGetr] using h.symm⟩)
  | getg c => exact .inr (.inl ⟨_, by simpa [exec, execGetg] using h.symm⟩)
  | getb c => exact .inr (.inl ⟨_, by simpa [exec, execGetb] using h.symm⟩)
  | scale c f => exact .inr (.inl ⟨_, by simpa [exec, execScale] using h.symm⟩)
  | hue p => exact .inr (.inl ⟨_, by simpa [exec, execHue] using h.symm⟩)
  | setpix n c =>
    simp only [exec, execSetpix, faultOutOfRange] at h
    split at h
    · cases h
    · exact .inr (.inr (.inl ⟨n, c, rfl, by omega, by simpa using h.symm⟩))
  | getpix n =>
    simp only [exec, execGetpix, faultOutOfRange] at h
    split at h
    · cases h
    · exact .inr (.inl ⟨_, by simpa using h.symm⟩)
  | wipes c d =>
    exact .inr (.inr (.inr (.inr (.inr (.inl ⟨.wipes c d, _, rfl, rfl, by simpa [exec, execWipes] using h.symm⟩)))))
  | wiper sh d =>
    exact .inr (.inr (.inr (.inr (.inr (.inl ⟨.wiper sh d, _, rfl, rfl, by simpa [exec, execWiper] using h.symm⟩)))))
  | scrlf n c =>
    simp only [exec, execScrlf] at h
    split at h
    · exact .inl (by simpa using h.symm)
    · exact .inr (.inr (.inr (.inl ⟨n, c, rfl, by omega, by simpa using h.symm⟩)))
  | scrlb n c =>
    simp only [exec, execScrlb] at h
    split at h
    · exact .inl (by simpa using h.symm)
    · exact .inr (.inr (.inr (.inr (.inl ⟨n, c, rfl, by omega, by simpa using h.symm⟩))))
  | showBuf => exact .inr (.inr (.inr (.inr (.inr (.inr ⟨rfl, by simpa [exec, execShow] using h.symm⟩)))))

/-! ### Scrolls -/

theorem reducedAmount_lt {npix : Nat} {amount : Half} (h : 0 < reducedAmount npix amount) :
    reducedAmount npix amount < npix := by
  unfold reducedAmount at *
  split at h
  · omega
  · next h0 => rw [if_neg h0]; exact Nat.mod_lt _ (by omega)

theorem scrolledForward_wf {m : Memory} (h : m.wf) (p : Params) (a : Nat) (c : Color) : (scrolledForward p a c m).wf :=
  pixLoop_wf (moveBytes_wf h _ _ _) _ _ _ _

theorem scrolledBackward_wf {m : Memory} (h : m.wf) (p : Params) (a : Nat) (c : Color) : (scrolledBackward p a c m).wf :=
  pixLoop_wf (moveBytes_wf h _ _ _) _ _ _ _

theorem moveBytes_bounded {m : Memory} {n : Nat} (h : ∀ c ∈ m, c.1 < n) {dst src len : Nat} (hd : dst + len ≤ n) :
    ∀ c ∈ moveBytes m dst src len, c.1 < n :=
  writeBytes_bounded h _ (by simpa using hd)

theorem bufLen_split {p : Params} {a : Nat} (h : a ≤ p.npix) : a * p.stride + (p.npix - a) * p.stride = p.bufLen := by
  rw [← Nat.add_mul, Nat.add_sub_cancel' h]; rfl

theorem scrolledForward_bounded {p : Params} (hp : p.legal = true) {m : Memory} (h : ∀ c ∈ m, c.1 < p.bufLen) {a : Nat}
    (ha : a ≤ p.npix) (c : Color) : ∀ x ∈ scrolledForward p a c m, x.1 < p.bufLen :=
  pixLoop_bounded hp (moveBytes_bounded h (Nat.le_of_eq (bufLen_split ha))) _ (by omega)

theorem scrolledBackward_bounded {p : Params} (hp : p.legal = true) {m : Memory} (h : ∀ c ∈ m, c.1 < p.bufLen) {a : Nat}
    (ha : a ≤ p.npix) (c : Color) : ∀ x ∈ scrolledBackward p a c m, x.1 < p.bufLen :=
  pixLoop_bounded hp (moveBytes_bounded h (by have := bufLen_split ha; omega)) _ (by omega)

end Sys2Proof.Machine
end

