-- ==== Sys2Proof/Laws/PerInstr.lean ====
section
/-! SUPPORT. Per instruction, as syntax: the encoder puts the opcode of R65 in cmd[63:56] and leaves every reserved bit of the format 0 (spec/30_encoding.md R61, R66, R67). -/
namespace Sys2Proof.Laws.Encoding

/-- The word of a command has its opcode byte and no reserved bit set. -/
def Statement (i : Instr) : Prop :=
  opcField (encode i) = i.op.opcode ∧ encode i &&& i.op.format.reservedMask = 0

/-- The opcode byte is above every operand field, and no mask reaches it. -/
theorem statement_of {i : Instr} (h1 : (operandBits i).extractLsb' 56 8 = 0)
    (h2 : operandBits i &&& i.op.format.reservedMask = 0) : Statement i := by
  have hm : i.op.format.reservedMask.extractLsb' 56 8 = 0 := by
    generalize i.op = o
    cases o <;> decide
  refine ⟨?_, ?_⟩
  · rw [opcField, encode, BitVec.extractLsb'_or, read_placed_same _ _ (by decide), h1]
    exact BitVec.or_zero
  · rw [encode, and_mask_or, placed_and_mask _ _ _ hm, h2]
    exact BitVec.or_zero

theorem nop : Statement (.nop) := ⟨by decide, by decide⟩

theorem pack (w : Byte) (r : Byte) (g : Byte) (b : Byte) : Statement (.pack w r g b) := by
  apply statement_of
  · simp [operandBits, BitVec.extractLsb'_or, read_placed_other]
  · simp (disch := decide) [operandBits, and_mask_or, Instr.op, Op.format, Format.reservedMask, placed_and_mask]

theorem getw (c : Color) : Statement (.getw c) := by
  apply statement_of
  · simp [operandBits, read_placed_other]
  · simp (disch := decide) [operandBits, Instr.op, Op.format, Format.reservedMask, placed_and_mask]

theorem getr (c : Color) : Statement (.getr c) := by
  apply statement_of
  · simp [operandBits, read_placed_other]
  · simp (disch := decide) [operandBits, Instr.op, Op.format, Format.reservedMask, placed_and_mask]

theorem getg (c : Color) : Statement (.getg c) := by
  apply statement_of
  · simp [operandBits, read_placed_other]
  · simp (disch := decide) [operandBits, Instr.op, Op.format, Format.reservedMask, placed_and_mask]

theorem getb (c : Color) : Statement (.getb c) := by
  apply statement_of
  · simp [operandBits, read_placed_other]
  · simp (disch := decide) [operandBits, Instr.op, Op.format, Format.reservedMask, placed_and_mask]

theorem scale (c : Color) (f : Byte) : Statement (.scale c f) := by
  apply statement_of
  · simp [operandBits, BitVec.extractLsb'_or, read_placed_other]
  · simp (disch := decide) [operandBits, and_mask_or, Instr.op, Op.format, Format.reservedMask, placed_and_mask]

theorem hue (p : Byte) : Statement (.hue p) := by
  apply statement_of
  · simp [operandBits, read_placed_other]
  · simp (disch := decide) [operandBits, Instr.op, Op.format, Format.reservedMask, placed_and_mask]

theorem setpix (n : Half) (c : Color) : Statement (.setpix n c) := by
  apply statement_of
  · simp [operandBits, BitVec.extractLsb'_or, read_placed_other]
  · simp (disch := decide) [operandBits, and_mask_or, Instr.op, Op.format, Format.reservedMask, placed_and_mask]

theorem getpix (n : Half) : Statement (.getpix n) := by
  apply statement_of
  · simp [operandBits, read_placed_other]
  · simp (disch := decide) [operandBits, Instr.op, Op.format, Format.reservedMask, placed_and_mask]

theorem wipes (c : Color) (n : Half) : Statement (.wipes c n) := by
  apply statement_of
  · simp [operandBits, BitVec.extractLsb'_or, read_placed_other]
  · simp (disch := decide) [operandBits, and_mask_or, Instr.op, Op.format, Format.reservedMask, placed_and_mask]

theorem wiper (p : Byte) (n : Half) : Statement (.wiper p n) := by
  apply statement_of
  · simp [operandBits, BitVec.extractLsb'_or, read_placed_other]
  · simp (disch := decide) [operandBits, and_mask_or, Instr.op, Op.format, Format.reservedMask, placed_and_mask]

theorem scrlf (n : Half) (c : Color) : Statement (.scrlf n c) := by
  apply statement_of
  · simp [operandBits, BitVec.extractLsb'_or, read_placed_other]
  · simp (disch := decide) [operandBits, and_mask_or, Instr.op, Op.format, Format.reservedMask, placed_and_mask]

theorem scrlb (n : Half) (c : Color) : Statement (.scrlb n c) := by
  apply statement_of
  · simp [operandBits, BitVec.extractLsb'_or, read_placed_other]
  · simp (disch := decide) [operandBits, and_mask_or, Instr.op, Op.format, Format.reservedMask, placed_and_mask]

theorem showBuf : Statement (.showBuf) := ⟨by decide, by decide⟩

end Sys2Proof.Laws.Encoding
end

