-- ==== Sys2Proof/Laws/Run.lean ====
section
/-! SUPPORT. Runs of the machine step by step, and the lines of collaborators that acknowledge at once. -/
namespace Sys2Proof.Machine

theorem run_zero (s : State) : core.run 0 s = .next s := rfl

/-- A run whose first step answers a next state goes on from it. -/
theorem run_succ {s u : State} (n : Nat) (h : step s = .next u) : core.run (n + 1) s = core.run n u := by
  have h' : core.step s = .next u := h
  simp only [Host.Core.run, h']

/-- A run of `n + m` steps is a run of `m` steps from where `n` steps lead. -/
theorem run_add {n : Nat} (m : Nat) {s u : State} (h : core.run n s = .next u) : core.run (n + m) s = core.run m u := by
  induction n generalizing s with
  | zero =>
    cases h
    rw [Nat.zero_add]
  | succ n ih =>
    cases hs : step s with
    | next v =>
      rw [run_succ n hs] at h
      rw [show n + 1 + m = n + m + 1 by omega, run_succ (n + m) hs]
      exact ih h
    | fault r =>
      have h' : core.step s = .fault r := hs
      simp only [Host.Core.run, h'] at h
      cases h
    | refused r =>
      have h' : core.step s = .refused r := hs
      simp only [Host.Core.run, h'] at h
      cases h

/-- With prompt collaborators every step sees both acknowledgements and no reset, and the schedule stays. -/
theorem prompt_lines {s : State} (h : PromptLines s) : currentLines s = Lines.prompt ∧ takeSample s = s := by
  have h' : s.inputs = [Lines.prompt] := h
  refine ⟨by simp [currentLines, h'], ?_⟩
  simp only [takeSample, setInputs, h', laterInputs]
  rw [← h']

end Sys2Proof.Machine
end

