-- ==== Sys2Proof/Tests/Slice0.lean ====
section
/-! SUPPORT. The model's own tests: the legality checks, the decoder on words written out from the spec, one small step per instruction with the expected value from spec/95_test_vectors.md, and a witness for every statement that has hypotheses. -/
namespace Sys2Proof.Tests

open Sys2Proof Sys2Proof.Machine

/-- The next state of an answer, if it is one. -/
def nextOf : Host.Outcome State Fault Refusal → Option State
  | .next s => some s
  | _ => none

/-- The fault of an answer, if it is one. -/
def faultOf : Host.Outcome State Fault Refusal → Option Fault
  | .fault f => some f
  | _ => none

/-- `NPIX = 4`, `RGB`, `REF`, buffer `01 02 03  04 05 06  07 08 09  0A 0B 0C`: the start of V-SCROLL. -/
def four : State :=
  { State.reset with
    mem := [(0, 1), (1, 2), (2, 3), (3, 4), (4, 5), (5, 6), (6, 7), (7, 8), (8, 9), (9, 10), (10, 11), (11, 12)] }

/-- `NPIX = 2`, `RGBW`, channel order W, B, G, R (V-PIX). -/
def two : State :=
  { State.reset with params := { npix := 2, layout := .rgbw, order := ⟨3, 2, 1, 0⟩, init := List.replicate 8 7 } }

/-- `NPIX = 0`. -/
def none0 : State := { State.reset with params := { npix := 0, layout := .rgb, order := .ref, init := [] } }

/-- The buffer of an answer. -/
def bufOf (o : Host.Outcome State Fault Refusal) : Option (List Byte) :=
  (nextOf o).map (fun s => snapshot s.params s.mem)

/-- `RESULT` of an answer. -/
def resOf (o : Host.Outcome State Fault Refusal) : Option (BitVec 32) := (nextOf o).map (·.result)

/-! ### Legality, each check with a term it refuses (R6, R136) -/

theorem test_params_legal : Params.reference.legal = true := by decide
theorem test_params_too_many_pixels :
    ({ npix := 65536, layout := .rgb, order := .ref, init := [] } : Params).legal = false := by decide
theorem test_params_rgb_offset_repeated : (⟨1, 0, 1, 3⟩ : ChOrder).legal .rgb = false := by decide
theorem test_params_rgb_offset_beyond_stride : (⟨1, 0, 3, 2⟩ : ChOrder).legal .rgb = false := by decide
theorem test_params_rgbw_offset_repeated : (⟨3, 2, 1, 3⟩ : ChOrder).legal .rgbw = false := by decide
theorem test_params_rgb_ignores_w : (⟨1, 0, 2, 1⟩ : ChOrder).legal .rgb = true := by decide
theorem test_params_init_too_short :
    ({ npix := 1, layout := .rgb, order := .ref, init := [0, 0] } : Params).legal = false := by decide
theorem test_params_zero_pixels : none0.params.legal = true := by decide
theorem test_word_reserved_bit_illegal : legalWord 0x0000000000000001 = false := by decide
theorem test_word_opcode_illegal : legalWord 0x0800000000000000 = false := by decide
theorem test_word_legal : legalWord 0x21000000000000FF = true := by decide

/-! ### The decoder on words written out bit by bit from the patterns of R63, fields A1B2C3D4H, 8F01H, 9AH, E5H -/

theorem test_decode_nop : decodeTableWord 64 0b00000000_00000000_00000000_00000000_00000000_00000000_00000000_00000000 = some (.nop) := by decide
theorem test_decode_pack : decodeTableWord 64 0b00000001_00000000_00000000_00000000_10100001_10110010_11000011_11010100 = some (.pack 0xA1 0xB2 0xC3 0xD4) := by decide
theorem test_decode_getw : decodeTableWord 64 0b00000010_00000000_00000000_00000000_10100001_10110010_11000011_11010100 = some (.getw 0xA1B2C3D4) := by decide
theorem test_decode_getr : decodeTableWord 64 0b00000011_00000000_00000000_00000000_10100001_10110010_11000011_11010100 = some (.getr 0xA1B2C3D4) := by decide
theorem test_decode_getg : decodeTableWord 64 0b00000100_00000000_00000000_00000000_10100001_10110010_11000011_11010100 = some (.getg 0xA1B2C3D4) := by decide
theorem test_decode_getb : decodeTableWord 64 0b00000101_00000000_00000000_00000000_10100001_10110010_11000011_11010100 = some (.getb 0xA1B2C3D4) := by decide
theorem test_decode_scale : decodeTableWord 64 0b00000110_00000000_00000000_10011010_10100001_10110010_11000011_11010100 = some (.scale 0xA1B2C3D4 0x9A) := by decide
theorem test_decode_hue : decodeTableWord 64 0b00000111_00000000_00000000_00000000_00000000_00000000_00000000_11100101 = some (.hue 0xE5) := by decide
theorem test_decode_setpix : decodeTableWord 64 0b00010000_00000000_10001111_00000001_10100001_10110010_11000011_11010100 = some (.setpix 0x8F01 0xA1B2C3D4) := by decide
theorem test_decode_getpix : decodeTableWord 64 0b00010001_00000000_10001111_00000001_00000000_00000000_00000000_00000000 = some (.getpix 0x8F01) := by decide
theorem test_decode_wipes : decodeTableWord 64 0b00100000_00000000_10001111_00000001_10100001_10110010_11000011_11010100 = some (.wipes 0xA1B2C3D4 0x8F01) := by decide
theorem test_decode_wiper : decodeTableWord 64 0b00100001_00000000_10001111_00000001_00000000_00000000_00000000_11100101 = some (.wiper 0xE5 0x8F01) := by decide
theorem test_decode_scrlf : decodeTableWord 64 0b00110000_00000000_10001111_00000001_10100001_10110010_11000011_11010100 = some (.scrlf 0x8F01 0xA1B2C3D4) := by decide
theorem test_decode_scrlb : decodeTableWord 64 0b00110001_00000000_10001111_00000001_10100001_10110010_11000011_11010100 = some (.scrlb 0x8F01 0xA1B2C3D4) := by decide
theorem test_decode_show : decodeTableWord 64 0b01000000_00000000_00000000_00000000_00000000_00000000_00000000_00000000 = some (.showBuf) := by decide

/-! V-ILLEGAL of spec/95_test_vectors.md. -/

theorem test_reject_opcode_08 : decodeWord 0x0800000000000000 = .error .unassignedOpcode := by decide
theorem test_reject_opcode_ff : decodeWord 0xFF00000000000000 = .error .unassignedOpcode := by decide
theorem test_reject_nop_bit_0 : decodeWord 0x0000000000000001 = .error .reservedBits := by decide
theorem test_reject_getw_bit_48 : decodeWord 0x0201000000000000 = .error .reservedBits := by decide
theorem test_reject_scale_bit_40 : decodeWord 0x0600010000000000 = .error .reservedBits := by decide
theorem test_reject_scrlf_bit_55 : decodeWord 0x3080000100000000 = .error .reservedBits := by decide
theorem test_reject_word_too_long : decodeTableWord 72 0 = none ∧ decodeTableWord 64 (2 ^ 64) = none := by decide
theorem test_reject_word_too_short :
    decodeTableWord 57 0x0100000010203040 = none ∧ decodeTableWord 8 0 = none ∧ decodeTableWord 63 0 = none := by decide

/-! ### One step per instruction; expected values from spec/95_test_vectors.md -/

theorem test_fetch_word_runs_first :
    resOf (step (State.reset.withFetchWord 64 0x0100000010203040)) = some 0x10203040 := by decide
theorem test_fetch_word_runs_when_busy :
    resOf (step ({ four with phase := .run .showBuf 0 .awaitFinalDisplay, inputs := [⟨true, true, true⟩] }.withFetchWord 64
      0x0700000000000080)) = some 0x00007E81 := by decide
theorem test_nop : nextOf (exec .nop four) = some four := by decide
theorem test_pack_keeps_white_in_rgb : resOf (exec (.pack 0x12 0x34 0x56 0x78) four) = some 0x12345678 := by decide
theorem test_getw : resOf (exec (.getw 0x10203040) four) = some 0x00000010 := by decide
theorem test_getr : resOf (exec (.getr 0x10203040) four) = some 0x00000020 := by decide
theorem test_getg : resOf (exec (.getg 0x10203040) four) = some 0x00000030 := by decide
theorem test_getb : resOf (exec (.getb 0x10203040) four) = some 0x00000040 := by decide
theorem test_scale_exact : resOf (exec (.scale 0xDEADBEEF 100) four) = some 0x57444A5E := by decide
theorem test_scale_white_in_rgb : resOf (exec (.scale 0xFF000080 63) four) = some 0x3F000020 := by decide
theorem test_hue_band_a : resOf (exec (.hue 171) four) = some 0x000300FC := by decide
theorem test_hue_band_c : resOf (exec (.hue 42) four) = some 0x00817E00 := by decide
theorem test_setpix_rgb : bufOf (exec (.setpix 2 0xAAFF8000) four) =
    some [1, 2, 3, 4, 5, 6, 0xFF, 0x80, 0, 10, 11, 12] := by decide
theorem test_setpix_rgbw_order : bufOf (exec (.setpix 0 0x01020304) two) = some [1, 4, 3, 2, 0, 0, 0, 0] := by decide
theorem test_getpix_rgb : resOf (exec (.getpix 3) four) = some 0x000A0B0C := by decide
theorem test_getpix_out_of_range : faultOf (exec (.getpix 4) four) = some (.pixelIndexOutOfRange 4) := by decide
theorem test_wipes_instant : (nextOf (exec (.wipes 0x00102030 0) four)).map (·.events) =
    some [.display [0x10, 0x20, 0x30, 0x10, 0x20, 0x30, 0x10, 0x20, 0x30, 0x10, 0x20, 0x30]] := by decide
theorem test_wipes_animated_first_frame : (nextOf (exec (.wipes 0x000000FF 20) four)).map (·.events) =
    some [.display [0, 0, 0xFF, 4, 5, 6, 7, 8, 9, 10, 11, 12]] := by decide
theorem test_wiper_three_pixels : bufOf (exec (.wiper 0 0) { four with params := { four.params with npix := 3 } }) =
    some [0xFF, 0, 0, 0, 0xFF, 0, 0, 0, 0xFF] := by decide
theorem test_rainbow_wraps : (List.range 5).map (rainbowPos 5 200) = [200, 251, 46, 97, 148] := by decide
theorem test_scrlf_reduces_amount : bufOf (exec (.scrlf 65535 0) four) =
    some [0, 0, 0, 0, 0, 0, 0, 0, 0, 1, 2, 3] := by decide
theorem test_scrlf_full_length_no_op : nextOf (exec (.scrlf 4 0xFF) four) = some four := by decide
theorem test_scrlb_overlap : bufOf (exec (.scrlb 1 0) four) = some [4, 5, 6, 7, 8, 9, 10, 11, 12, 0, 0, 0] := by decide
theorem test_scrlb_fill : bufOf (exec (.scrlb 3 0xFF) four) =
    some [10, 11, 12, 0, 0, 0xFF, 0, 0, 0xFF, 0, 0, 0xFF] := by decide
theorem test_show_empty_strand : (nextOf (exec .showBuf none0)).map (·.events) = some [.display []] := by decide
theorem test_show_busy : (nextOf (exec .showBuf four)).map statusWord = some 1 := by decide
theorem test_illegal_sets_status : (nextOf (step { four with cmds := [0x4100000000000000] })).map statusWord = some 2 := by
  decide

/-! V-CFG, the assembler's lines (R69), the reset state as a construction. -/

theorem test_config_rgb : configWord { npix := 8, layout := .rgb, order := .ref, init := [] } = 0xE4300008 := by decide
theorem test_config_rgbw : configWord { npix := 8, layout := .rgbw, order := .ref, init := [] } = 0xE4410008 := by decide
theorem test_config_rgb_order : configWord { npix := 3, layout := .rgb, order := ⟨1, 0, 2, 1⟩, init := [] } = 0xE1300003 := by
  decide
theorem test_assemble_line_hex_comment :
    (assembleLine [' ', 'H', 'u', 'e', ' ', '0', 'x', '8', '0', ' ', ';', 'x']).toOption = some (some (.hue 128)) := by decide
theorem test_assemble_line_default_fill :
    (assembleLine ['s', 'c', 'r', 'l', 'f', ' ', '1']).toOption = some (some (.scrlf 1 0)) := by decide
theorem test_reset_is_constructed : nextOf (construct Params.reference [] [Lines.prompt]) = some State.reset := by decide

/-! ### Witnesses: a state and operands that meet the hypotheses of each statement together -/

/-- `four` with an animated wipe whose first Display is outstanding. -/
def shown : State :=
  { four with
    phase := .run (.wipes 0x000000FF 20) 1 .awaitDisplay
    events := [.display [1, 2, 3, 4, 5, 6, 7, 8, 9, 10, 11, 12]] }

/-- `four` waiting for the Wait of an animated wipe after pixel `i - 1`. -/
def waiting (i : Nat) : State :=
  { four with phase := .run (.wipes 0x000000FF 20) i .awaitWait, events := [.wait 20] }

/-- `four` waiting for the Wait of an animated rainbow after pixel `i - 1`. -/
def waitingRainbow (i : Nat) : State :=
  { four with phase := .run (.wiper 64 10) i .awaitWait, events := [.wait 10] }

/-- `four` with SHOW outstanding. -/
def showing : State :=
  { four with
    phase := .run .showBuf 0 .awaitFinalDisplay
    events := [.display [1, 2, 3, 4, 5, 6, 7, 8, 9, 10, 11, 12]] }

/-- `four` with nothing asserted on its lines. -/
def quiet (s : State) : State := { s with inputs := [] }

theorem test_inv_idle {s : State} (hp : s.phase = .idle) (h1 : s.params.legal = true) (h2 : s.mem.wf)
    (h3 : BufferBounded s) (he : s.events = []) : Inv s :=
  ⟨h1, h2, h3, by rw [hp]; trivial, by simp [he], fun x hx => by simp [displayRequest, hp] at hx,
    fun x hx => by simp [waitRequest, hp] at hx⟩

theorem test_inv_four : Inv four := test_inv_idle rfl (by decide) (by decide) (by unfold BufferBounded; decide) rfl

theorem test_inv_shown : Inv shown :=
  ⟨by decide, by decide, by unfold BufferBounded; decide, by simp [shown, PhaseOk, Job.delay]; decide,
    by simp [shown, EventOk]; decide,
    fun x hx => by
      have : snapshot shown.params shown.mem = [1, 2, 3, 4, 5, 6, 7, 8, 9, 10, 11, 12] := by decide
      simp only [displayRequest, shown, Option.some.injEq] at hx
      subst hx
      simpa [shown] using this.symm,
    fun x hx => by simp [waitRequest, shown] at hx⟩

theorem test_inv_waiting_last : Inv (waiting 4) :=
  ⟨by decide, by decide, by unfold BufferBounded; decide, by simp [waiting, PhaseOk, Job.delay]; decide,
    by simp [waiting, EventOk],
    fun x hx => by simp [displayRequest, waiting] at hx,
    fun x hx => by simp [waitRequest, waiting, Job.delay] at hx; subst hx; rfl⟩

theorem test_witness_EncodeOfDecodeIsTheWord : decodeWord 0x20000014000000FF = .ok (.wipes 0xFF 20) := by decide
theorem test_witness_DecoderAcceptsExactlyTheTableRows :
    ([0x08, 0x0F, 0x12, 0x1F, 0x22, 0x2F, 0x32, 0x3F, 0x41, 0xFF].all fun b : Byte =>
      decide (decodeWord (placed 56 b) = .error .unassignedOpcode)) = true ∧
    ([0x00, 0x07, 0x10, 0x11, 0x20, 0x21, 0x30, 0x31, 0x40].all fun b : Byte => legalWord (placed 56 b)) = true := by decide
theorem test_witness_TableRowsDoNotOverlap :
    opcodeTable.filter (·.hits 0x0700000000000055) = [⟨.hue, 0x0700000000000000, 0xFFFFFFFFFFFFFF00⟩] := by decide
theorem test_witness_WorkedEncodings :
    (assemble (.op .pack) [0x10, 0x20, 0x30, 0x40]).toOption.map encode = some 0x0100000010203040 := by decide
theorem test_witness_AssemblerNeverTruncates :
    (assemble (.op .setpix) [65535, 2 ^ 32 - 1]).toOption = some (.setpix 0xFFFF 0xFFFFFFFF) ∧
    assemble (.op .setpix) [65536, 0] = .error .operandTooWide ∧ assemble (.op .setpix) [0, 2 ^ 32] = .error .operandTooWide ∧
    (assemble (.op .scale) [2 ^ 32 - 1, 255]).toOption = some (.scale 0xFFFFFFFF 255) ∧
    assemble (.op .scale) [0, 256] = .error .operandTooWide ∧ (assemble (.op .wiper) [255, 65535]).toOption = some (.wiper 255 65535) ∧
    assemble (.op .wiper) [256, 0] = .error .operandTooWide ∧ (assemble (.op .getw) [2 ^ 32 - 1]).toOption = some (.getw 0xFFFFFFFF) ∧
    assemble (.op .getw) [2 ^ 32] = .error .operandTooWide ∧ (assemble (.op .getpix) [65535]).toOption = some (.getpix 65535) ∧
    assemble (.op .getpix) [65536] = .error .operandTooWide ∧ (assemble (.op .hue) [255]).toOption = some (.hue 255) ∧
    assemble (.op .hue) [256] = .error .operandTooWide ∧
    (assemble (.op .pack) [255, 255, 255, 255]).toOption = some (.pack 255 255 255 255) ∧
    assemble (.op .pack) [0, 0, 0, 256] = .error .operandTooWide := by decide

theorem test_witness_StepRunsTheDecodedCommand :
    let s : State := { four with cmds := [0x0700000000000055] }
    (currentLines s).rst = false ∧ s.phase = .idle ∧ s.cmds = 0x0700000000000055 :: [] ∧
      decodeWord 0x0700000000000055 = .ok (.hue 85) := by decide
theorem test_witness_IllegalWordIsRejected :
    let s : State := { four with cmds := [0x0201000000000000] }
    (currentLines s).rst = false ∧ s.phase = .idle ∧ s.cmds = 0x0201000000000000 :: [] ∧
      legalWord 0x0201000000000000 = false := by decide
theorem test_witness_ResetTakesPrecedence :
    let s : State := { shown with inputs := [⟨true, true, true⟩] }
    s.params.legal = true ∧ (currentLines s).rst = true := by decide
theorem test_witness_BusyEngineAcceptsNoCommand : busy { shown with cmds := [0x0700000000000055] } = true := by decide
theorem test_witness_EngineHoldsUntilAcknowledged :
    ((currentLines (quiet shown)).rst = false ∧ (∃ snap, displayRequest (quiet shown) = some snap) ∧
      (currentLines (quiet shown)).dispAck = false) ∧
    ((currentLines (quiet (waiting 1))).rst = false ∧ (∃ ms, waitRequest (quiet (waiting 1)) = some ms) ∧
      (currentLines (quiet (waiting 1))).waitAck = false) :=
  ⟨⟨rfl, ⟨_, rfl⟩, rfl⟩, ⟨rfl, ⟨_, rfl⟩, rfl⟩⟩
theorem test_witness_FinalDisplayAcknowledgementCompletes :
    (currentLines showing).rst = false ∧ showing.phase = .run .showBuf 0 .awaitFinalDisplay ∧
      (currentLines showing).dispAck = true := by decide
theorem test_witness_DisplayAcknowledgementIssuesWait :
    (currentLines shown).rst = false ∧ shown.phase = .run (.wipes 0xFF 20) 1 .awaitDisplay ∧
      (currentLines shown).dispAck = true ∧ Job.delay (.wipes 0xFF 20) ≠ 0 := by decide
theorem test_witness_WaitAcknowledgementWritesTheNextPixel :
    [0, 1, 3, 4].all (fun i => decide ((waiting i).params.legal = true ∧ (currentLines (waiting i)).rst = false ∧
      (waiting i).phase = .run (.wipes 0xFF 20) i .awaitWait ∧ (currentLines (waiting i)).waitAck = true)) = true ∧
    (Job.wipes 0xFF 20) ≠ .showBuf := by decide
theorem test_witness_WaitAcknowledgementWritesTheNextHue :
    [0, 1, 3, 4].all (fun i => decide ((waitingRainbow i).params.legal = true ∧ (currentLines (waitingRainbow i)).rst = false ∧
      (waitingRainbow i).phase = .run (.wiper 64 10) i .awaitWait ∧ (currentLines (waitingRainbow i)).waitAck = true)) = true ∧
    (Job.wiper 64 10) ≠ .showBuf := by decide
theorem test_witness_SpuriousAcknowledgementIsIgnored :
    displayRequest four = none ∧ waitRequest four = none ∧ waitRequest shown = none ∧ displayRequest (waiting 1) = none ∧
      (Lines.low).rst = (Lines.prompt).rst := by decide
theorem test_witness_IdleEngineStaysIdle :
    (currentLines four).rst = false ∧ four.phase = .idle ∧ four.cmds = [] := by decide
theorem test_witness_NothingIsWrittenWhileDisplayOutstanding :
    (currentLines shown).rst = false ∧ displayRequest shown = some [1, 2, 3, 4, 5, 6, 7, 8, 9, 10, 11, 12] ∧
      (nextOf (step shown)).isSome = true := by decide
theorem test_witness_ConstructionRefusesExactlyIllegalParameters :
    (∀ p ∈ [four.params, two.params, none0.params], p.npix ≤ 65535 ∧ p.legal = true) ∧
    { four.params with init := List.replicate 11 0 }.legal = false ∧
    { four.params with order := ⟨0, 1, 1, 3⟩ }.legal = false ∧ { two.params with order := ⟨0, 1, 2, 2⟩ }.legal = false := by
  decide
theorem test_legal_by_length (n : Nat) (l : List Byte) :
    { four.params with npix := n, init := l }.legal = (decide (n ≤ 65535) && decide (l.length = n * 3)) := by
  have h : four.params.order.legal four.params.layout = true := by decide
  simp only [Params.legal, h, Bool.and_true]; rfl
theorem test_witness_ConstructionAtTheLongestStrand :
    { four.params with npix := 65535, init := List.replicate (65535 * 3) 0 }.legal = true ∧
    { four.params with npix := 65536, init := List.replicate (65536 * 3) 0 }.legal = false := by
  simp only [test_legal_by_length, List.length_replicate, decide_true, Bool.and_true]; decide
theorem test_witness_ConfigRegisterFields : four.params.npix ≤ 65535 := by decide
theorem test_witness_LegalChannelOrdersArePermutations : ChOrder.legal .rgb ⟨1, 0, 3, 2⟩ = false := by decide
theorem test_witness_ShowDisplaysTheBuffer :
    (currentLines { showing with inputs := [Lines.low] }).rst = false ∧
      (currentLines { showing with inputs := [Lines.prompt] }).rst = false := by decide
theorem test_witness_IllegalBitIsSticky :
    ((nextOf (step { four with illegal := true })).map (·.illegal) = some true ∧
      (currentLines { four with illegal := true }).rst = false) ∧
    (nextOf (step { four with cmds := [0x0800000000000000] })).map (·.illegal) = some true := by decide
theorem test_witness_OnlyEightCommandsWriteResult :
    (nextOf (exec (.setpix 0 0xFF) four)).isSome = true ∧
      (Instr.setpix 0 0xFF).op ∉ [Op.pack, Op.getw, Op.getr, Op.getg, Op.getb, Op.scale, Op.hue, Op.getpix] := by decide
theorem test_witness_ConfigurationNeverChanges : (nextOf (step shown)).isSome = true := by decide
theorem test_witness_PackAndUnpackRoundTrip :
    exec (.pack 0xDE 0xAD 0xBE 0xEF) four = .next { four with result := 0xDEADBEEF } ∧
      (nextOf (exec (.getw 0xDEADBEEF) four)).isSome = true := ⟨rfl, by decide⟩
theorem test_witness_ScaleLaws :
    (resOf (exec (.scale 0x01020304 255) four) = some 0x01020304 ∧ resOf (exec (.scale 0xFFFFFFFF 0) four) = some 0) ∧
    (resOf (exec (.scale 0x7F7F7F7F 1) four) = some 0 ∧ resOf (exec (.scale 0x80808080 1) four) = some 0x01010101) := by decide
theorem test_witness_HueLaws :
    hueColor 84 = 0x0003FC00 ∧ hueColor 86 = 0x0000FC03 ∧ hueColor 169 = 0x000003FC ∧ hueColor 171 = 0x000300FC ∧
      hueColor 254 = 0x00FC0003 ∧ hueColor 255 = 0x00FF0000 := by decide
theorem test_witness_CodecIgnoresLayoutAndBuffer :
    (Instr.pack 1 2 3 4).op ∈ [Op.pack, Op.getw, Op.getr, Op.getg, Op.getb, Op.scale, Op.hue] ∧
      (nextOf (exec (.pack 1 2 3 4) four)).isSome = true ∧ (nextOf (exec (.pack 1 2 3 4) two)).isSome = true := by decide
theorem test_witness_SetpixWritesOnePixel :
    four.params.legal = true ∧ (3 : Half).toNat < four.params.npix ∧ four.params.npix ≤ (4 : Half).toNat ∧
      none0.params.npix ≤ (0 : Half).toNat := by decide
theorem test_witness_GetpixReadsOnePixel :
    (0 : Half).toNat < two.params.npix ∧ (1 : Half).toNat < two.params.npix ∧ two.params.npix ≤ (2 : Half).toNat := by decide
theorem test_witness_GetpixAfterSetpix :
    two.params.legal = true ∧ (0 : Half).toNat < two.params.npix ∧ (1 : Half).toNat < two.params.npix ∧
      (nextOf (exec (.setpix 0 0x01020304) two)).isSome = true := by decide
theorem test_witness_OnlyOutOfRangeIndexFaults :
    faultOf (step { four with cmds := [0x1000000400000000] }) = some (.pixelIndexOutOfRange 4) ∧
    faultOf (step { four with cmds := [0x1100FFFF00000000] }) = some (.pixelIndexOutOfRange 65535) ∧
    faultOf (step { four with cmds := [0x1100000300000000] }) = none := by decide
theorem test_witness_ZeroLengthStrandIsANoOp : none0.params.npix = 0 := by decide
theorem test_witness_InstantWipeSetsEveryPixel : two.params.legal = true ∧ 0 < two.params.npix := by decide
theorem test_witness_InstantRainbowSpansTheWheel : four.params.legal = true ∧ 0 < four.params.npix := by decide
theorem test_witness_AnimatedWipeStartsWithPixelZero :
    four.params.legal = true ∧ 0 < four.params.npix ∧ (20 : Half) ≠ 0 := by decide
theorem test_witness_AnimatedWipeRunsToCompletion :
    let s : State := { four with cmds := [0x20000014000000FF] }
    let r : State := { four with cmds := [0x2100000A00000040] }
    (s.params.legal = true ∧ 0 < s.params.npix ∧ s.phase = .idle ∧ s.inputs = [Lines.prompt] ∧
      Job.delay (.wipes 0xFF 20) ≠ 0 ∧ s.cmds = Job.cmd (.wipes 0xFF 20) :: []) ∧
    (Job.delay (.wiper 64 10) ≠ 0 ∧ r.cmds = Job.cmd (.wiper 64 10) :: []) := by decide
theorem test_witness_ScrollForwardShiftsAndFills :
    four.params.legal = true ∧ 5 % four.params.npix = 1 ∧ 4 % four.params.npix = 0 := by decide
theorem test_witness_ScrollBackwardShiftsAndFills :
    two.params.legal = true ∧ 3 % two.params.npix = 1 ∧ 2 % two.params.npix = 0 := by decide
theorem test_witness_ScrollForwardThenBackwardLosesTheEnd :
    four.params.legal = true ∧ 0 < four.params.npix ∧ 0 < (5 : Half).toNat % four.params.npix ∧
      (nextOf (exec (.scrlf 5 0xFF) four)).isSome = true := by decide
theorem test_witness_ScrollFillReadsBack :
    (four.params.legal = true ∧ (nextOf (exec (.scrlf 6 0xFF) four)).isSome = true ∧ 0 < four.params.npix ∧
      (1 : Half).toNat < (6 : Half).toNat % four.params.npix) ∧
    ((nextOf (exec (.scrlb 6 0xFF) four)).isSome = true ∧
      four.params.npix - (6 : Half).toNat % four.params.npix ≤ (2 : Half).toNat ∧ (3 : Half).toNat < four.params.npix) := by
  decide
theorem test_witness_NopChangesNothing :
    (0x0000000000000001#64).extractLsb' 56 8 = 0 ∧ (0x0000000000000001#64 : CmdWord) ≠ 0 := by decide
theorem test_witness_OnlyShowAndWipesDisplay :
    (nextOf (exec (.scrlb 1 0) four)).isSome = true ∧ (Instr.scrlb 1 0).op ∉ [Op.showBuf, Op.wipes, Op.wiper] := by decide
theorem test_witness_RepeatedCommandsAreIdempotent :
    four.mem.wf ∧ (Instr.setpix 1 0).op ∉ [Op.showBuf, Op.wipes, Op.wiper, Op.scrlf, Op.scrlb] ∧
      (nextOf (exec (.setpix 1 0) four)).isSome = true := by decide
theorem test_witness_StepKeepsTheInvariant : Inv shown ∧ (nextOf (step shown)).isSome = true :=
  ⟨test_inv_shown, by decide⟩
theorem test_witness_ConstructionMeetsTheInvariant :
    (nextOf (construct two.params [] [Lines.prompt])).isSome = true := by decide
theorem test_witness_EventHistoryOnlyGrows :
    (currentLines shown).rst = false ∧ (nextOf (step shown)).map (·.events.length) = some 2 := by decide
theorem test_witness_CommandInFlightCompletes : Inv shown ∧ PromptLines shown ∧ busy shown = true :=
  ⟨test_inv_shown, rfl, rfl⟩
theorem test_witness_NoCancellationButReset :
    (Inv shown ∧ (currentLines shown).rst = false ∧ (nextOf (step shown)).isSome = true) ∧
    (Inv (waiting 4) ∧ (currentLines (waiting 4)).rst = false ∧
      (nextOf (step (waiting 4))).map (·.phase) = some .idle) :=
  ⟨⟨test_inv_shown, by decide, by decide⟩, ⟨test_inv_waiting_last, by decide, by decide⟩⟩

end Sys2Proof.Tests
end

section
/-! State family (spec/10_state.md): what no command and no step changes, and the fields of `CONFIG` (R21, R26). -/
namespace Sys2Proof.Machine

/-! ### What every command, and every step, leaves unchanged -/

/-- A command leaves the parameters, `ILLEGAL` and the inputs (R21, R25, R60). -/
theorem exec_frame {i : Instr} {s t : State} (h : exec i s = .next t) :
    ParamsKept s t ∧ t.illegal = s.illegal ∧ InputsKept s t := by
  rcases exec_cases h with rfl | ⟨v, rfl⟩ | ⟨n, c, -, -, rfl⟩ | ⟨n, c, -, -, rfl⟩ | ⟨n, c, -, -, rfl⟩ |
    ⟨job, f, -, -, rfl⟩ | ⟨-, rfl⟩
  · exact ⟨rfl, rfl, rfl, rfl⟩
  · exact ⟨rfl, rfl, rfl, rfl⟩
  · exact ⟨rfl, rfl, rfl, rfl⟩
  · exact ⟨rfl, rfl, rfl, rfl⟩
  · exact ⟨rfl, rfl, rfl, rfl⟩
  · obtain ⟨hparams, -, hillegal, hinputs⟩ := wipeSequence_frame job f s
    exact ⟨hparams, hillegal, hinputs⟩
  · exact ⟨rfl, rfl, rfl, rfl⟩

/-- Every step, reset included, leaves the construction parameters (R21). -/
theorem step_paramsKept {s t : State} (h : step s = .next t) : ParamsKept s t := by
  rcases step_cases h with ⟨-, ht⟩ | ⟨-, job, i, stage, -, ht⟩ | ⟨-, -, -, ht⟩ | ⟨-, -, w, ws, i, -, -, ht⟩ |
    ⟨-, -, w, ws, e, -, -, ht⟩
  · cases ht; rfl
  · cases ht
    exact (stageStep_frame job i stage (currentLines s) (takeSample s)).1
  · cases ht; rfl
  · exact (exec_frame ht.symm).1
  · cases ht; rfl

/-! ### `CONFIG` -/

@[simp] theorem hostRead_config (s : State) : hostRead s 2 = configWord s.params := rfl

theorem step_hostRead_config {s t : State} (h : step s = .next t) : hostRead t 2 = hostRead s 2 :=
  congrArg configWord (step_paramsKept h)

theorem layoutCode_eq (l : Layout) : layoutCode l = if l = .rgbw then 1 else 0 := by
  cases l <;> rfl

theorem stride_eq (p : Params) : p.stride = if p.layout = .rgbw then 4 else 3 := by
  unfold Params.stride
  cases p.layout <;> rfl

theorem configWOff_eq (p : Params) : configWOff p = if p.layout = .rgbw then p.order.wOff.val else 3 := by
  unfold configWOff
  cases p.layout <;> rfl

/-- The derived fields of R26 fit theirs: `LAYOUT` one bit, `STRIDE` three, `W_OFF` two. -/
theorem config_codes_fit (p : Params) : layoutCode p.layout < 2 ∧ p.stride < 8 ∧ configWOff p < 4 := by
  rw [layoutCode_eq, stride_eq, configWOff_eq]
  split <;> omega

/-- A legal strand length fits `PIXEL_COUNT`, so the sum of the fields of R26 does not overflow the register. -/
theorem configWord_toNat {p : Params} (h : p.npix ≤ 65535) :
    (configWord p).toNat =
      p.npix + layoutCode p.layout * 2 ^ 16 + p.stride * 2 ^ 20 + p.order.rOff.val * 2 ^ 24 +
        p.order.gOff.val * 2 ^ 26 + p.order.bOff.val * 2 ^ 28 + configWOff p * 2 ^ 30 := by
  obtain ⟨hlayout, hstride, hwOff⟩ := config_codes_fit p
  rw [configWord, BitVec.toNat_ofNat]
  omega

/-- A field of a word, as a quotient and a remainder. -/
theorem extractLsb'_toNat_eq_div {w : Nat} (x : BitVec w) (lo n : Nat) :
    (x.extractLsb' lo n).toNat = x.toNat / 2 ^ lo % 2 ^ n := by
  rw [BitVec.extractLsb'_toNat, Nat.shiftRight_eq_div_pow]

/-- Every field of R26 at its bits, the reserved bits 19:17 and 23 zero. -/
theorem configWord_fields {p : Params} (h : p.npix ≤ 65535) :
    ((configWord p).extractLsb' 0 16).toNat = p.npix ∧
    ((configWord p).extractLsb' 16 1).toNat = layoutCode p.layout ∧
    ((configWord p).extractLsb' 17 3).toNat = 0 ∧
    ((configWord p).extractLsb' 20 3).toNat = p.stride ∧
    ((configWord p).extractLsb' 23 1).toNat = 0 ∧
    ((configWord p).extractLsb' 24 2).toNat = p.order.rOff.val ∧
    ((configWord p).extractLsb' 26 2).toNat = p.order.gOff.val ∧
    ((configWord p).extractLsb' 28 2).toNat = p.order.bOff.val ∧
    ((configWord p).extractLsb' 30 2).toNat = configWOff p := by
  obtain ⟨hlayout, hstride, hwOff⟩ := config_codes_fit p
  simp only [extractLsb'_toNat_eq_div, configWord_toNat h]
  refine ⟨?_, ?_, ?_, ?_, ?_, ?_, ?_, ?_, ?_⟩ <;> omega

/-! ### The obligations -/

/-- Settles O27: no step changes the parameters, and `BUFLEN`, `CONFIG` and the snapshot's length are functions of
them. -/
theorem configurationNeverChanges : Obligations.ConfigurationNeverChanges := by
  intro s t h
  have hp : t.params = s.params := step_paramsKept h
  exact ⟨hp, by rw [hp], step_hostRead_config h, by rw [snapshot_length, hp, Params.bufLen]⟩

/-- Settles O22: the fields do not overlap, and `CONFIG` depends on the parameters alone. -/
theorem configRegisterFields : Obligations.ConfigRegisterFields := by
  intro s hn
  obtain ⟨hnpix, hlayout, hlow, hstride, hhigh, hr, hg, hb, hw⟩ := configWord_fields hn
  rw [layoutCode_eq] at hlayout
  rw [stride_eq] at hstride
  rw [configWOff_eq] at hw
  exact ⟨hnpix, hlayout, hlow, hstride, hhigh, hr, hg, hb, hw, fun t h => step_hostRead_config h⟩

end Sys2Proof.Machine
end

section
/-! Encoding family (spec/30_encoding.md): the assembler's fields (R69) and the pseudo-instructions (R70). -/
namespace Sys2Proof.Machine

/-! ### Operands in their fields -/

theorem asmField_of_lt {w n : Nat} (h : n < 2 ^ w) : asmField w n = .ok (BitVec.ofNat w n) := if_pos h

/-- The operand R70 fills in fits every field. -/
@[simp] theorem asmField_zero (w : Nat) : asmField w 0 = .ok 0 := asmField_of_lt (Nat.two_pow_pos w)

@[simp] theorem asmTwo_zero_zero {w v : Nat} (mk : BitVec w → BitVec v → Instr) :
    asmTwo mk 0 0 = .ok (mk 0 0) := by
  simp only [asmTwo, asmField_zero]

/-! ### The obligations -/

/-- `clear` names its command outright; the two operands of its expansion assemble to it because 0 fits both fields. -/
theorem assemble_clear_eq_wipes : assemble .clear [] = assemble (.op .wipes) [0, 0] :=
  calc assemble .clear []
    _ = .ok (.wipes 0 0) := rfl
    _ = asmTwo .wipes 0 0 := (asmTwo_zero_zero _).symm
    _ = assemble (.op .wipes) [0, 0] := rfl

/-- Settles O6: a short form with operands and its expansion are one call of `asmTwo` or `asmPack`, the missing
operand 0; `clear` has no operand to pass on. -/
theorem pseudoInstructionsExpand : Obligations.PseudoInstructionsExpand := by
  refine ⟨?scrlf, ?scrlb, ?rgb, ?wipes, ?wiper, assemble_clear_eq_wipes⟩
  case scrlf => exact fun _ => rfl
  case scrlb => exact fun _ => rfl
  case rgb => exact fun _ _ _ => rfl
  case wipes => exact fun _ => rfl
  case wiper => exact fun _ => rfl

end Sys2Proof.Machine
end

section
/-! Codec family (spec/40_color_codec.md): the words and the results of PACK and the channel accessors (R100 to R104). -/
namespace Sys2Proof.Machine

/-! ### Values of words -/

/-- No operand field reaches the opcode byte (R62). -/
theorem operandBits_opcByte (i : Instr) : (operandBits i).extractLsb' 56 8 = 0 := by
  cases i <;> simp [operandBits, BitVec.extractLsb'_or, read_placed_other]

theorem encode_toNat (i : Instr) :
    (encode i).toNat = i.op.opcode.toNat * 2 ^ 56 + (operandBits i).toNat := by
  rw [encode, or_toNat_of_disjoint (placed_and_mask 56 _ _ (operandBits_opcByte i)), placed_toNat 56 _ (by decide)]

/-- A command whose one operand is a color at `cmd[31:0]` (format FC). -/
theorem encode_toNat_of_color {i : Instr} {c : Color} (h : operandBits i = placed 0 c) :
    (encode i).toNat = i.op.opcode.toNat * 2 ^ 56 + c.toNat := by
  rw [encode_toNat, h, placed_toNat 0 c (by decide), Nat.pow_zero, Nat.mul_one]

/-- A channel's bits stay within the 32 bits of its color, so widening the color to a word loses none. -/
theorem setWidth_channel_shiftLeft {lo : Nat} (x : Byte) (h : lo + 8 ≤ 32) :
    (x.setWidth 32 <<< lo).setWidth 64 = x.setWidth 64 <<< lo := by
  ext k hk
  by_cases hout : lo + 8 ≤ k
  · simp [BitVec.getLsbD_of_ge x (k - lo) (by omega)]
  · grind

/-- The four operands of PACK are the packed color at `cmd[31:0]` (R100). -/
theorem operandBits_pack (w r g b : Byte) : operandBits (.pack w r g b) = placed 0 (packColor w r g b) := by
  simp (disch := decide) [operandBits, placed, packColor, BitVec.setWidth_or, setWidth_channel_shiftLeft]

/-! ### Values of colors -/

theorem chanW_toNat (c : Color) : (chanW c).toNat = c.toNat / 2 ^ 24 := by
  rw [chanW, extractLsb'_toNat_eq_div]
  omega

theorem chanR_toNat (c : Color) : (chanR c).toNat = c.toNat / 2 ^ 16 % 256 := extractLsb'_toNat_eq_div c 16 8

theorem chanG_toNat (c : Color) : (chanG c).toNat = c.toNat / 2 ^ 8 % 256 := extractLsb'_toNat_eq_div c 8 8

theorem chanB_toNat (c : Color) : (chanB c).toNat = c.toNat % 256 := by
  rw [chanB, extractLsb'_toNat_eq_div]
  omega

/-- A color is the sum of its channels at their places. -/
theorem color_toNat (c : Color) :
    c.toNat = (chanW c).toNat * 2 ^ 24 + (chanR c).toNat * 2 ^ 16 + (chanG c).toNat * 2 ^ 8 + (chanB c).toNat := by
  rw [chanW_toNat, chanR_toNat, chanG_toNat, chanB_toNat]
  omega

theorem packColor_toNat (w r g b : Byte) :
    (packColor w r g b).toNat = w.toNat * 2 ^ 24 + r.toNat * 2 ^ 16 + g.toNat * 2 ^ 8 + b.toNat := by
  rw [color_toNat, chanW_pack, chanR_pack, chanG_pack, chanB_pack]

@[simp] theorem zextChannel_toNat (x : Byte) : (zextChannel x).toNat = x.toNat :=
  BitVec.toNat_setWidth_of_le (by decide)

/-! ### The frame of a command that writes `RESULT` (R24) -/

theorem onlyResult_setResult (v : BitVec 32) (s : State) : OnlyResult s (setResult v s) :=
  ⟨fun _ => rfl, rfl, ⟨rfl, rfl⟩, rfl, rfl, rfl⟩

/-! ### The obligations -/

/-- Settles O28: PACK's operand fields are the packed color in place, and the color is the sum of its channels. -/
theorem packCombinesFourChannels : Obligations.PackCombinesFourChannels := by
  intro w r g b s
  have hcolor := packColor_toNat w r g b
  have hword := encode_toNat_of_color (operandBits_pack w r g b)
  refine ⟨?word, setResult (packColor w r g b) s, rfl, hcolor, onlyResult_setResult _ s⟩
  case word =>
    rw [hword, hcolor, ← Nat.add_assoc, ← Nat.add_assoc, ← Nat.add_assoc]
    rfl

/-- Settles O29: each accessor's operand is the color in place, and its result a channel of it, zero-extended. -/
theorem channelAccessorsExtract : Obligations.ChannelAccessorsExtract := by
  intro c s
  refine ⟨encode_toNat_of_color rfl, encode_toNat_of_color rfl, encode_toNat_of_color rfl, encode_toNat_of_color rfl,
    ?getw, ?getr, ?getg, ?getb⟩
  case getw => exact ⟨_, rfl, (zextChannel_toNat _).trans (chanW_toNat c), onlyResult_setResult _ s⟩
  case getr => exact ⟨_, rfl, (zextChannel_toNat _).trans (chanR_toNat c), onlyResult_setResult _ s⟩
  case getg => exact ⟨_, rfl, (zextChannel_toNat _).trans (chanG_toNat c), onlyResult_setResult _ s⟩
  case getb => exact ⟨_, rfl, (zextChannel_toNat _).trans (chanB_toNat c), onlyResult_setResult _ s⟩

end Sys2Proof.Machine
end

section
/-! Scaler family (spec/41_brightness_scaler.md): the word and the result of SCALE (R110, R111). -/
namespace Sys2Proof.Machine

/-! ### The word -/

/-- A command of an operand at `cmd[32]` upward and a color at `cmd[31:0]` (formats FS and FNC). -/
theorem encode_toNat_of_field_color {i : Instr} {n : Nat} {x : BitVec n} {c : Color} (hn : 32 + n ≤ 64)
    (h : operandBits i = placed 32 x ||| placed 0 c) :
    (encode i).toNat = i.op.opcode.toNat * 2 ^ 56 + x.toNat * 2 ^ 32 + c.toNat := by
  have hdisjoint := placed_disjoint x c (lo := 32) (lo' := 0) (.inr (Nat.le_refl 32))
  rw [encode_toNat, h, or_toNat_of_disjoint hdisjoint, placed_toNat 32 x hn, placed_toNat 0 c (by decide),
    Nat.pow_zero, Nat.mul_one, Nat.add_assoc]

/-! ### The channels -/

/-- The four lanes of a color are its four channels, and each is mapped alone (R106). -/
theorem mapChannels_lane (f : Byte → Byte) (c : Color) {lane : Nat} (h : lane < 4) :
    (mapChannels f c).extractLsb' (8 * lane) 8 = f (c.extractLsb' (8 * lane) 8) := by
  match lane, h with
  | 0, _ => exact chanB_pack ..
  | 1, _ => exact chanG_pack ..
  | 2, _ => exact chanR_pack ..
  | 3, _ => exact chanW_pack ..

/-- The channel law of R111: the product is at most `255 * 256`, so the quotient fits the byte. -/
theorem scaleChannel_toNat (f x : Byte) : (scaleChannel f x).toNat = x.toNat * (f.toNat + 1) / 256 := by
  have hproduct : x.toNat * (f.toNat + 1) ≤ 255 * 256 :=
    Nat.mul_le_mul (Nat.le_of_lt_succ x.isLt) f.isLt
  rw [scaleChannel, BitVec.toNat_ofNat]
  omega

/-! ### The obligation -/

/-- Settles O31: SCALE writes only `RESULT`, each lane of it the scaled lane of the color. -/
theorem scaleScalesEveryChannel : Obligations.ScaleScalesEveryChannel := by
  intro c f s
  refine ⟨encode_toNat_of_field_color (by decide) rfl, setResult (scaleColor c f) s, rfl, ?lanes,
    onlyResult_setResult _ s⟩
  case lanes =>
    intro lane hlane
    rw [setResult_result, scaleColor, mapChannels_lane _ c hlane, scaleChannel_toNat]

end Sys2Proof.Machine
end

section
/-! Channel multiplexer family (spec/43_channel_multiplexer.md): the legal channel orders (R136), and the words and the
effects of SETPIX and GETPIX (R130 to R133). -/
namespace Sys2Proof.Machine

/-! ### Legal channel orders (R136) -/

/-- `n` offsets are `0 .. n-1`, as a set, exactly when each is below `n` and no two are equal. -/
theorem offsets_eq_range_iff {k : Nat} (l : List (Fin k)) :
    (l.map Fin.val).toFinset = Finset.range l.length ↔ (∀ x ∈ l, x.val < l.length) ∧ l.Nodup := by
  rw [← List.nodup_map_iff Fin.val_injective, ← List.forall_mem_map (P := (· < l.length)),
    ← List.length_map (as := l) Fin.val]
  generalize l.map Fin.val = offsets
  constructor
  · intro hset
    have hcard : offsets.toFinset.card = offsets.length := (congrArg Finset.card hset).trans (Finset.card_range _)
    exact ⟨fun x hx => Finset.mem_range.1 (hset ▸ List.mem_toFinset.2 hx),
      Multiset.coe_nodup.1 (Multiset.toFinset_card_eq_card_iff_nodup.1 hcard)⟩
  · rintro ⟨hlt, hnodup⟩
    have hsub : offsets.toFinset ⊆ Finset.range offsets.length :=
      fun x hx => Finset.mem_range.2 (hlt x (List.mem_toFinset.1 hx))
    refine Finset.eq_of_subset_of_card_le hsub ?_
    rw [Finset.card_range, List.toFinset_card_of_nodup hnodup]

/-- An `RGB` order is legal exactly when its three offsets are the bytes of the pixel; `W_OFF` is not asked. -/
theorem legal_rgb_iff (o : ChOrder) :
    o.legal .rgb = true ↔ ({o.rOff.val, o.gOff.val, o.bOff.val} : Finset Nat) = {0, 1, 2} := by
  rw [show ({0, 1, 2} : Finset Nat) = Finset.range 3 from rfl]
  simpa [ChOrder.legal] using (offsets_eq_range_iff [o.rOff, o.gOff, o.bOff]).symm

/-- An `RGBW` order is legal exactly when its four offsets are the bytes of the pixel. -/
theorem legal_rgbw_iff (o : ChOrder) :
    o.legal .rgbw = true ↔ ({o.rOff.val, o.gOff.val, o.bOff.val, o.wOff.val} : Finset Nat) = {0, 1, 2, 3} := by
  rw [show ({0, 1, 2, 3} : Finset Nat) = Finset.range 4 from rfl]
  simpa [ChOrder.legal] using (offsets_eq_range_iff [o.rOff, o.gOff, o.bOff, o.wOff]).symm

theorem construct_refused {p : Params} (h : p.legal ≠ true) (ws : List CmdWord) (ls : List Lines) :
    construct p ws ls = .refused .illegalParameters := if_neg h

/-! ### The commands, below `NPIX` and not -/

theorem exec_setpix_of_lt {n : Half} {s : State} (h : n.toNat < s.params.npix) (c : Color) :
    exec (.setpix n c) s = .next (setMem (pixWrite s.params n.toNat c s.mem) s) := if_neg (Nat.not_le_of_lt h)

theorem exec_setpix_of_ge {n : Half} {s : State} (h : s.params.npix ≤ n.toNat) (c : Color) :
    exec (.setpix n c) s = .fault (.pixelIndexOutOfRange n) := if_pos h

theorem exec_getpix_of_lt {n : Half} {s : State} (h : n.toNat < s.params.npix) :
    exec (.getpix n) s = .next (setResult (pixRead s.params s.mem n.toNat) s) := if_neg (Nat.not_le_of_lt h)

theorem exec_getpix_of_ge {n : Half} {s : State} (h : s.params.npix ≤ n.toNat) :
    exec (.getpix n) s = .fault (.pixelIndexOutOfRange n) := if_pos h

theorem onlyBuffer_setMem (m : Memory) (s : State) : OnlyBuffer s (setMem m s) :=
  ⟨rfl, rfl, ⟨rfl, rfl⟩, rfl, rfl, rfl⟩

/-- The value of the color gathered from a pixel (R131): its channels' bytes at their places, white 0 in `RGB`. -/
theorem pixRead_toNat (p : Params) (m : Memory) (i : Nat) :
    (pixRead p m i).toNat =
      (if p.layout = .rgbw then (memRead m (i * p.stride + p.order.wOff.val)).toNat else 0) * 2 ^ 24 +
      (memRead m (i * p.stride + p.order.rOff.val)).toNat * 2 ^ 16 +
      (memRead m (i * p.stride + p.order.gOff.val)).toNat * 2 ^ 8 +
      (memRead m (i * p.stride + p.order.bOff.val)).toNat := by
  rw [pixRead, packColor_toNat]
  cases p.layout <;> rfl

/-! ### The obligations -/

/-- Settles O21: R136's offsets, in range and no two equal, are a permutation by counting; construction asks for it. -/
theorem legalChannelOrdersArePermutations : Obligations.LegalChannelOrdersArePermutations := by
  refine ⟨fun o => ⟨legal_rgb_iff o, legal_rgbw_iff o⟩, fun p ws ls hillegal => ?_⟩
  exact construct_refused (fun hlegal => Bool.false_ne_true (hillegal.symm.trans (legal_order hlegal))) ws ls

/-- Settles O36: below `NPIX` SETPIX is one `PixWrite`, whose bytes all lie within the pixel of a legal order. -/
theorem setpixWritesOnePixel : Obligations.SetpixWritesOnePixel := by
  intro n c s
  refine ⟨encode_toNat_of_field_color (by decide) rfl, fun hlegal hlt => ?_, fun hge => exec_setpix_of_ge hge c⟩
  exact ⟨_, exec_setpix_of_lt hlt c, onlyBuffer_setMem _ s, pixWrite_holds hlegal _ c s.mem,
    fun _ houtside => memRead_pixWrite_outside hlegal _ c s.mem houtside⟩

/-- Settles O37: GETPIX's one operand is in place, and below `NPIX` it writes `RESULT` with one `PixRead`. -/
theorem getpixReadsOnePixel : Obligations.GetpixReadsOnePixel := by
  intro n s
  refine ⟨?word, fun hlt => ⟨_, exec_getpix_of_lt hlt, onlyResult_setResult _ s, ?gathered⟩, exec_getpix_of_ge⟩
  case word =>
    have hoperand : (operandBits (.getpix n)).toNat = n.toNat * 2 ^ 32 := placed_toNat 32 n (by decide)
    rw [encode_toNat, hoperand]
    rfl
  case gathered => exact pixRead_toNat s.params s.mem n.toNat

end Sys2Proof.Machine
end

section
/-! Scroll family (spec/45_scroll.md): the words and the effects of SCRLF and SCRLB (R150 to R152). -/
namespace Sys2Proof.Machine

open Host (Outcome)

/-! ### Pixels through the block move and the fill -/

theorem PixelSame.trans {p : Params} {m m' m'' : Memory} {i j k : Nat} (h : PixelSame p m i m' j)
    (h' : PixelSame p m' j m'' k) : PixelSame p m i m'' k :=
  fun o ho => (h o ho).trans (h' o ho)

/-- A pixel outside a loop's range is as before. -/
theorem pixLoop_pixelSame {p : Params} (h : p.legal = true) (f : Nat → Color) (lo n : Nat) (m : Memory) {j : Nat}
    (hj : j < lo ∨ lo + n ≤ j) : PixelSame p (pixLoop p f lo n m) j m j := by
  intro k hk
  refine memRead_pixLoop_outside h f lo n m (hj.imp (fun hbefore => ?before) fun hafter => ?after)
  case before => have := pixel_before (p := p) hbefore; omega
  case after => exact Nat.le_add_right_of_le (Nat.mul_le_mul_right _ hafter)

/-- Moving whole pixels: pixel `i` of the block is old pixel `i` of its source, whatever the overlap (R49). -/
theorem moveBytes_pixelSame (p : Params) (m : Memory) (dst src : Nat) {len i : Nat} (hi : i < len) :
    PixelSame p (moveBytes m (dst * p.stride) (src * p.stride) (len * p.stride)) (dst + i) m (src + i) := by
  intro k hk
  have hwithin := pixel_before (p := p) hi
  rw [memRead_moveBytes, Nat.add_mul, Nat.add_mul, if_pos (by omega)]
  congr 1
  omega

/-! ### The buffer after a scroll -/

theorem scrolledForward_shift {p : Params} (h : p.legal = true) {a j : Nat} (c : Color) (m : Memory) (haj : a ≤ j)
    (hj : j < p.npix) : PixelSame p (scrolledForward p a c m) j m (j - a) := by
  have hmove := moveBytes_pixelSame p m a 0 (len := p.npix - a) (i := j - a) (by omega)
  rw [Nat.zero_mul, Nat.zero_add, Nat.add_sub_cancel' haj] at hmove
  exact (pixLoop_pixelSame h _ 0 a _ (.inr (by omega))).trans hmove

theorem scrolledForward_fill {p : Params} (h : p.legal = true) {a j : Nat} (c : Color) (m : Memory) (hj : j < a) :
    PixelHolds p (scrolledForward p a c m) j c :=
  pixLoop_holds h (fun _ => c) 0 a _ (Nat.zero_le j) (by omega)

theorem scrolledBackward_shift {p : Params} (h : p.legal = true) {a j : Nat} (c : Color) (m : Memory)
    (hj : j < p.npix - a) : PixelSame p (scrolledBackward p a c m) j m (j + a) := by
  have hmove := moveBytes_pixelSame p m 0 a hj
  rw [Nat.zero_mul, Nat.zero_add, Nat.add_comm a j] at hmove
  exact (pixLoop_pixelSame h _ (p.npix - a) a _ (.inl hj)).trans hmove

theorem scrolledBackward_fill {p : Params} (h : p.legal = true) {a j : Nat} (c : Color) (m : Memory)
    (haj : p.npix - a ≤ j) (hj : j < p.npix) : PixelHolds p (scrolledBackward p a c m) j c :=
  pixLoop_holds h (fun _ => c) (p.npix - a) a _ haj (by omega)

/-- A block move and a fill that both end within the strand leave every byte at or above `BUFLEN`. -/
theorem memRead_pixLoop_moveBytes_beyond {p : Params} (h : p.legal = true) (f : Nat → Color) {lo n : Nat} (m : Memory)
    {dst len : Nat} (src : Nat) {k : Nat} (hfill : lo + n ≤ p.npix) (hmove : dst + len ≤ p.bufLen) (hk : p.bufLen ≤ k) :
    memRead (pixLoop p f lo n (moveBytes m dst src len)) k = memRead m k := by
  have hfillEnd : (lo + n) * p.stride ≤ p.bufLen := Nat.mul_le_mul_right _ hfill
  rw [memRead_pixLoop_outside h f lo n _ (.inr (by omega)), memRead_moveBytes, if_neg (by omega)]

theorem memRead_scrolledForward_beyond {p : Params} (h : p.legal = true) {a k : Nat} (ha : a ≤ p.npix) (c : Color)
    (m : Memory) (hk : p.bufLen ≤ k) : memRead (scrolledForward p a c m) k = memRead m k :=
  memRead_pixLoop_moveBytes_beyond h _ m _ (by omega) (Nat.le_of_eq (bufLen_split ha)) hk

theorem memRead_scrolledBackward_beyond {p : Params} (h : p.legal = true) {a k : Nat} (ha : a ≤ p.npix) (c : Color)
    (m : Memory) (hk : p.bufLen ≤ k) : memRead (scrolledBackward p a c m) k = memRead m k :=
  memRead_pixLoop_moveBytes_beyond h _ m _ (by omega) (by have := bufLen_split ha; omega) hk

/-! ### The commands -/

theorem exec_scrlf (n : Half) (c : Color) (s : State) :
    exec (.scrlf n c) s = if reducedAmount s.params.npix n = 0 then .next s
      else .next (setMem (scrolledForward s.params (reducedAmount s.params.npix n) c s.mem) s) := rfl

theorem exec_scrlb (n : Half) (c : Color) (s : State) :
    exec (.scrlb n c) s = if reducedAmount s.params.npix n = 0 then .next s
      else .next (setMem (scrolledBackward s.params (reducedAmount s.params.npix n) c s.mem) s) := rfl

/-- What the two scrolls share (R150): nothing for the amount 0, else a new buffer, alike at and above `BUFLEN`; `P`
is what the one scroll says of its buffer. -/
theorem scroll_effect {s : State} {o : Outcome State Fault Refusal} {a : Nat} {m : Memory} {P : State → Prop}
    (ho : o = if a = 0 then .next s else .next (setMem m s))
    (hbeyond : 0 < a → ∀ k, s.params.bufLen ≤ k → memRead m k = memRead s.mem k) (hP : 0 < a → P (setMem m s)) :
    ∃ t, o = .next t ∧ OnlyBuffer s t ∧ BufferKeptOutside 0 s.params.bufLen s t ∧ (a = 0 → t = s) ∧ (0 < a → P t) := by
  subst ho
  rcases Nat.eq_zero_or_pos a with hzero | hpos
  · exact ⟨s, if_pos hzero, onlyBuffer_setMem s.mem s, fun _ _ => rfl, fun _ => rfl, fun hpos => absurd hzero hpos.ne'⟩
  · exact ⟨setMem m s, if_neg hpos.ne', onlyBuffer_setMem m s, fun k hout => hbeyond hpos k (by omega),
      fun hzero => absurd hzero hpos.ne', hP⟩

/-! ### The obligations -/

/-- Settles O45: the fill of the leading pixels and the block move before it meet at pixel `a`. -/
theorem scrollForwardShiftsAndFills : Obligations.ScrollForwardShiftsAndFills := by
  intro n c s hlegal
  refine ⟨encode_toNat_of_field_color (by decide) rfl, scroll_effect (exec_scrlf n c s) ?beyond ?pixels⟩
  case beyond => exact fun hpos _ hk => memRead_scrolledForward_beyond hlegal (reducedAmount_lt hpos).le c s.mem hk
  case pixels =>
    exact fun _ => ⟨fun _ haj hj => scrolledForward_shift hlegal c s.mem haj hj,
      fun _ hj => scrolledForward_fill hlegal c s.mem hj⟩

/-- Settles O46: the block move and the fill of the trailing pixels after it meet at pixel `NPIX - a`. -/
theorem scrollBackwardShiftsAndFills : Obligations.ScrollBackwardShiftsAndFills := by
  intro n c s hlegal
  refine ⟨encode_toNat_of_field_color (by decide) rfl, scroll_effect (exec_scrlb n c s) ?beyond ?pixels⟩
  case beyond => exact fun hpos _ hk => memRead_scrolledBackward_beyond hlegal (reducedAmount_lt hpos).le c s.mem hk
  case pixels =>
    exact fun _ => ⟨fun _ hj => scrolledBackward_shift hlegal c s.mem hj,
      fun _ haj hj => scrolledBackward_fill hlegal c s.mem haj hj⟩

end Sys2Proof.Machine
end

section
/-! System family (spec/46_system.md): the words and the effects of SHOW and NOP (R160, R161). -/
namespace Sys2Proof.Machine

/-! ### SHOW, and the hold of a last Display -/

theorem exec_showBuf (s : State) : exec .showBuf s = .next (finalDisplay .showBuf 0 s) := rfl

theorem onlyDisplays_finalDisplay (job : Job) (i : Nat) (s : State) : OnlyDisplays s (finalDisplay job i s) :=
  ⟨rfl, rfl, rfl, rfl, rfl⟩

theorem busy_of_run {s : State} {job : Job} {i : Nat} {stage : Stage} (h : s.phase = .run job i stage) :
    busy s = true := by
  rw [busy, h]

@[simp] theorem busy_setPhase_idle (s : State) : busy (setPhase .idle s) = false := rfl

/-- The last Display of a command in flight holds the engine busy until `disp_ack` (R27, R160). -/
theorem step_awaitFinalDisplay_busy {s : State} {job : Job} {i : Nat} (hp : s.phase = .run job i .awaitFinalDisplay)
    (hr : (currentLines s).rst = false) :
    ∃ t, step s = .next t ∧ (busy t = true ↔ (currentLines s).dispAck = false) := by
  refine ⟨_, step_run hr hp, ?_⟩
  cases hack : (currentLines s).dispAck
  case false => simp [stageStep, hack, busy_of_run (s := takeSample s) hp]
  case true => simp [stageStep, hack]

/-! ### The words with the opcode of NOP -/

/-- Under the reserved mask of NOP lie the seven bytes below its opcode, so of the words with its opcode only the
all-zero word has no reserved bit set (R66, R161). -/
theorem word_eq_zero_of_nop_fields {w : CmdWord} (hopc : opcField w = 0)
    (hmask : w &&& Op.nop.format.reservedMask = 0) :
    w = 0 := by
  have hcovered : ∀ k < 7, Op.nop.format.reservedMask.extractLsb' (8 * k) 8 = BitVec.allOnes 8 := by decide
  refine word_ext fun k hk => ?_
  rcases Nat.lt_succ_iff_lt_or_eq.1 hk with hlow | rfl
  · exact (read_of_and_mask hmask (hcovered k hlow)).trans BitVec.extractLsb'_zero.symm
  · exact hopc

theorem decodeWord_of_opcField_zero {w : CmdWord} (h : opcField w = 0) :
    decodeWord w = if w &&& Op.nop.format.reservedMask = 0 then .ok .nop else .error .reservedBits := by
  rw [decodeWord, h]
  rfl

/-! ### The obligations -/

/-- Settles O49: SHOW is one last Display of the buffer, which holds until its acknowledgement on any later lines. -/
theorem showDisplaysTheBuffer : Obligations.ShowDisplaysTheBuffer := by
  intro s
  refine ⟨rfl, finalDisplay .showBuf 0 s, snapshot s.params s.mem, exec_showBuf s, snapshot_length _ _,
    snapshot_getElem _ _, finalDisplay_events _ _ s, rfl, rfl, fun _ => rfl, onlyDisplays_finalDisplay _ _ s, ?held⟩
  case held => exact fun _ hr => step_awaitFinalDisplay_busy rfl hr

/-- Settles O50: every bit of a word below the opcode byte of NOP is reserved, and its one legal word does nothing. -/
theorem nopChangesNothing : Obligations.NopChangesNothing := by
  refine ⟨rfl, decodeWord_of_opcField_zero rfl, fun w hopc hne => ?_, fun _ => rfl⟩
  have hreserved : w &&& Op.nop.format.reservedMask ≠ 0 := fun hmask => hne (word_eq_zero_of_nop_fields hopc hmask)
  exact (decodeWord_of_opcField_zero hopc).trans (if_neg hreserved)

end Sys2Proof.Machine
end

section
/-! Exceptions family (spec/60_exceptions.md): the decoder rejects every illegal word (R67), and a rejection sets
`STATUS.ILLEGAL` and nothing else (R171). -/
namespace Sys2Proof

/-! ### The rows of the opcode table, by mnemonic -/

/-- The row of a mnemonic from R65 and R66: its opcode at the opcode byte, and under the mask that byte and the
reserved bits of its format. -/
def rowOf (op : Op) : TableRow := ⟨op, placed 56 op.opcode, placed 56 (0xFF : Byte) ||| op.format.reservedMask⟩

theorem rowOf_mem_opcodeTable (op : Op) : rowOf op ∈ opcodeTable := by
  cases op <;> decide

theorem and_opcodeMask (w : CmdWord) : w &&& placed 56 (0xFF : Byte) = placed 56 (opcField w) := by
  refine word_ext fun k hk => ?_
  rw [BitVec.extractLsb'_and]
  rcases Nat.lt_succ_iff_lt_or_eq.1 hk with hlow | rfl
  · have hbelow : 8 * k + 8 ≤ 56 := by omega
    rw [read_placed_other 56 (8 * k) _ (.inr hbelow), read_placed_other 56 (8 * k) _ (.inr hbelow)]
    exact BitVec.and_zero
  · rw [read_placed_same 56 _ (by decide), read_placed_same 56 _ (by decide)]
    exact BitVec.and_allOnes

/-- A word with the opcode of the row and no reserved bit set matches the row. -/
theorem rowOf_hits {w : CmdWord} {op : Op} (hopc : op.opcode = opcField w) (hmask : w &&& op.format.reservedMask = 0) :
    (rowOf op).hits w = true := by
  have hbits : w &&& (rowOf op).mask = (rowOf op).pattern := by
    calc w &&& (placed 56 (0xFF : Byte) ||| op.format.reservedMask)
        = (w &&& placed 56 (0xFF : Byte)) ||| (w &&& op.format.reservedMask) := BitVec.and_or_distrib_left
      _ = placed 56 op.opcode := by rw [and_opcodeMask, hmask, hopc]; exact BitVec.or_zero
  exact beq_iff_eq.2 hbits

/-! ### What the decoder accepts -/

theorem opcode_of_opOf {b : Byte} {op : Op} (h : opOf b = some op) : op.opcode = b :=
  eq_of_beq (List.find?_some (p := fun op : Op => op.opcode == b) h)

/-- The decoder accepts a word only under the opcode of some mnemonic with its reserved bits 0 (R66). -/
theorem decodeWord_ok_fields {w : CmdWord} {i : Instr} (h : decodeWord w = .ok i) :
    ∃ op : Op, op.opcode = opcField w ∧ w &&& op.format.reservedMask = 0 := by
  rw [decodeWord] at h
  split at h
  case h_1 => cases h
  case h_2 op hop =>
    split at h
    case isTrue hmask => exact ⟨op, opcode_of_opOf hop, hmask⟩
    case isFalse => cases h

theorem legalWord_of_decodeWord_ok {w : CmdWord} {i : Instr} (h : decodeWord w = .ok i) : legalWord w = true := by
  obtain ⟨op, hopc, hmask⟩ := decodeWord_ok_fields h
  exact List.any_eq_true.2 ⟨rowOf op, rowOf_mem_opcodeTable op, rowOf_hits hopc hmask⟩

theorem decodeWord_error_of_illegal {w : CmdWord} (h : legalWord w = false) : ∃ e, decodeWord w = .error e := by
  cases hd : decodeWord w
  case error e => exact ⟨e, rfl⟩
  case ok i => exact absurd (legalWord_of_decodeWord_ok hd) (by simp [h])

/-! ### The obligation -/

namespace Machine

theorem busy_of_idle {s : State} (h : s.phase = .idle) : busy s = false := by
  rw [busy, h]

theorem cmdReady_of_idle {s : State} (h : s.phase = .idle) : cmdReady s = true := by
  rw [cmdReady, busy_of_idle h, Bool.not_false]

/-- Settles O9: a word that no row of the opcode table matches is one the decoder rejects, and the rejecting step
writes `ILLEGAL` alone, past taking the word and the sample of the lines. -/
theorem illegalWordIsRejected : Obligations.IllegalWordIsRejected := by
  intro s w ws hrst hidle hcmds hillegal
  obtain ⟨e, hdecode⟩ := decodeWord_error_of_illegal hillegal
  have hphase : (raiseIllegal (setCmds ws (takeSample s))).phase = .idle := hidle
  exact ⟨_, step_illegal hrst hidle hcmds hdecode, raiseIllegal_illegal _, fun _ => rfl, rfl, rfl, hphase,
    busy_of_idle hphase, cmdReady_of_idle hphase, rfl, rfl, rfl⟩

end Machine
end Sys2Proof
end

section
/-! Reset family (spec/70_reset_and_hazards.md): with `rst` asserted every piece of state takes its reset value
(R190, R191), whatever is in flight or offered (R174). -/
namespace Sys2Proof.Machine

/-! ### `INIT_BUFFER` in the buffer -/

theorem memory_nil_wf : Memory.wf [] := ⟨List.Pairwise.nil, fun _ hc => absurd hc List.not_mem_nil⟩

/-- The buffer of an engine just reset is `INIT_BUFFER`, byte for byte (R32, R190). -/
theorem snapshot_writeBytes_init {p : Params} (h : p.legal = true) : snapshot p (writeBytes [] 0 p.init) = p.init := by
  refine List.ext_getElem ((snapshot_length p _).trans (legal_init h).symm) fun k hsnap hinit => ?_
  rw [snapshot_getElem p _ k hsnap]
  exact memRead_writeBytes_in [] 0 k p.init (Nat.zero_le k) hinit

/-- Reset leaves no byte at or above `BUFLEN`, for `INIT_BUFFER` ends there (R6). -/
theorem memRead_writeBytes_init_beyond {p : Params} (h : p.legal = true) {a : Nat} (ha : p.bufLen ≤ a) :
    memRead (writeBytes [] 0 p.init) a = unlistedByte :=
  memRead_writeBytes_out [] 0 a p.init (by have := legal_init h; omega)

/-! ### An idle engine -/

theorem statusWord_of_idle {s : State} (h : s.phase = .idle) (hillegal : s.illegal = false) : statusWord s = 0 := by
  rw [statusWord, busy_of_idle h, hillegal]
  rfl

theorem displayRequest_of_idle {s : State} (h : s.phase = .idle) : displayRequest s = none := by
  rw [displayRequest, h]

theorem waitRequest_of_idle {s : State} (h : s.phase = .idle) : waitRequest s = none := by
  rw [waitRequest, h]

/-! ### The obligation -/

/-- Settles O10: `rst` is looked at before the phase and the command port, so the step is `resetEngine` on the sampled
state; that engine is idle, with `INIT_BUFFER` as all of its buffer. -/
theorem resetTakesPrecedence : Obligations.ResetTakesPrecedence := by
  intro s hlegal hrst
  have hidle : (resetEngine (takeSample s)).phase = .idle := rfl
  exact ⟨_, step_reset hrst, rfl, rfl, statusWord_of_idle hidle rfl, rfl, hidle, snapshot_writeBytes_init hlegal,
    fun _ ha => memRead_writeBytes_init_beyond hlegal ha, writeBytes_wf memory_nil_wf 0 s.params.init, rfl,
    displayRequest_of_idle hidle, waitRequest_of_idle hidle, cmdReady_of_idle hidle, rfl, rfl⟩

end Sys2Proof.Machine
end

section
/-! Encoding and decoding (spec/30_encoding.md R62 to R67): the decoder and the encoder are inverse, and the words the
decoder accepts are those of the rows of spec/opcode_table.json. -/
namespace Sys2Proof

/-! ### Reading back what the encoder writes -/

/-- Every command's word has its opcode byte and no reserved bit set (R66). -/
theorem encoding_statement (i : Instr) : Laws.Encoding.Statement i := by
  cases i with
  | nop => exact Laws.Encoding.nop
  | pack w r g b => exact Laws.Encoding.pack w r g b
  | getw c => exact Laws.Encoding.getw c
  | getr c => exact Laws.Encoding.getr c
  | getg c => exact Laws.Encoding.getg c
  | getb c => exact Laws.Encoding.getb c
  | scale c f => exact Laws.Encoding.scale c f
  | hue p => exact Laws.Encoding.hue p
  | setpix n c => exact Laws.Encoding.setpix n c
  | getpix n => exact Laws.Encoding.getpix n
  | wipes c d => exact Laws.Encoding.wipes c d
  | wiper p d => exact Laws.Encoding.wiper p d
  | scrlf n c => exact Laws.Encoding.scrlf n c
  | scrlb n c => exact Laws.Encoding.scrlb n c
  | showBuf => exact Laws.Encoding.showBuf

/-- The opcode byte is above every field, so a field of the word is that field of the operands. -/
theorem read_encode (i : Instr) {lo n : Nat} (h : lo + n ≤ 56) :
    (encode i).extractLsb' lo n = (operandBits i).extractLsb' lo n := by
  rw [encode, BitVec.extractLsb'_or, read_placed_other 56 lo _ (.inr h)]
  exact BitVec.zero_or

/-- Each operand is read from the bits it was placed at, and the other operands of its command are elsewhere (R62). -/
theorem readOperands_encode (i : Instr) : readOperands (encode i) i.op = i := by
  cases i <;>
    simp [readOperands, Instr.op, wchField, rchField, gchField, lowByteField, colorField, factorField, n16Field,
      read_encode, operandBits, BitVec.extractLsb'_or, read_placed_same, read_placed_other]

/-- No two mnemonics have one opcode (R65). -/
theorem opOf_opcode (op : Op) : opOf op.opcode = some op := by
  cases op <;> rfl

/-- The decoder's one test and one answer (R66). -/
theorem decodeWord_eq_ok {w : CmdWord} {op : Op} (hopc : op.opcode = opcField w)
    (hmask : w &&& op.format.reservedMask = 0) : decodeWord w = .ok (readOperands w op) := by
  rw [decodeWord, ← hopc, opOf_opcode]
  exact if_pos hmask

/-- Settles O1: the word's opcode names the command's row, no reserved bit is set, and its fields are the operands. -/
theorem decodeOfEncodeIsTheCommand : Obligations.DecodeOfEncodeIsTheCommand := by
  intro i
  obtain ⟨hopc, hmask⟩ := encoding_statement i
  rw [decodeWord_eq_ok hopc.symm hmask, readOperands_encode]

/-! ### What the decoder accepts, as rows of the table -/

theorem readOperands_op (w : CmdWord) (op : Op) : (readOperands w op).op = op := by
  cases op <;> rfl

/-- Every row of the table is the row of R65 and R66 of its mnemonic. -/
theorem eq_rowOf_of_mem_opcodeTable {r : TableRow} (h : r ∈ opcodeTable) : r = rowOf r.op := by
  have hall : ∀ r ∈ opcodeTable, r = rowOf r.op := by decide
  exact hall r h

/-- The bits under the mask of a row are the opcode byte and the reserved bits, and its pattern is the opcode alone. -/
theorem rowOf_mask_pattern (op : Op) :
    (rowOf op).mask.extractLsb' 56 8 = BitVec.allOnes 8 ∧ (rowOf op).pattern.extractLsb' 56 8 = op.opcode ∧
    (rowOf op).mask &&& op.format.reservedMask = op.format.reservedMask ∧
    (rowOf op).pattern &&& op.format.reservedMask = 0 := by
  cases op <;> decide

/-- A word matches the row of a mnemonic exactly when it has its opcode and no reserved bit of its format set. -/
theorem rowOf_hits_iff {w : CmdWord} {op : Op} :
    (rowOf op).hits w = true ↔ op.opcode = opcField w ∧ w &&& op.format.reservedMask = 0 := by
  refine ⟨fun hhits => ?_, fun ⟨hopc, hmask⟩ => rowOf_hits hopc hmask⟩
  have hbits : w &&& (rowOf op).mask = (rowOf op).pattern := eq_of_beq hhits
  obtain ⟨hmaskOpc, hpatternOpc, hmaskReserved, hpatternReserved⟩ := rowOf_mask_pattern op
  constructor
  · calc op.opcode
        = (w &&& (rowOf op).mask).extractLsb' 56 8 := by rw [hbits, hpatternOpc]
      _ = opcField w := by rw [BitVec.extractLsb'_and, hmaskOpc, BitVec.and_allOnes, opcField]
  · calc w &&& op.format.reservedMask
        = w &&& (rowOf op).mask &&& op.format.reservedMask := by rw [BitVec.and_assoc, hmaskReserved]
      _ = 0 := by rw [hbits, hpatternReserved]

/-- The decoder answers a command exactly when the word matches the command's row and its fields are the operands. -/
theorem decodeWord_ok_iff {w : CmdWord} {i : Instr} :
    decodeWord w = .ok i ↔ (rowOf i.op).hits w = true ∧ readOperands w i.op = i := by
  constructor
  · intro h
    obtain ⟨op, hopc, hmask⟩ := decodeWord_ok_fields h
    have hi : readOperands w op = i := Except.ok.inj ((decodeWord_eq_ok hopc hmask).symm.trans h)
    rw [← hi, readOperands_op]
    exact ⟨rowOf_hits hopc hmask, rfl⟩
  · rintro ⟨hhits, hi⟩
    obtain ⟨hopc, hmask⟩ := rowOf_hits_iff.1 hhits
    rw [decodeWord_eq_ok hopc hmask, hi]

theorem decodeWord_ok_iff_legalWord {w : CmdWord} : (∃ i, decodeWord w = .ok i) ↔ legalWord w = true := by
  refine ⟨fun ⟨_, h⟩ => legalWord_of_decodeWord_ok h, fun h => ?_⟩
  obtain ⟨r, hr, hhits⟩ := List.any_eq_true.1 h
  rw [eq_rowOf_of_mem_opcodeTable hr] at hhits
  exact ⟨readOperands w r.op, decodeWord_ok_iff.2 (by rw [readOperands_op]; exact ⟨hhits, rfl⟩)⟩

theorem decodeWord_unassigned_iff {w : CmdWord} :
    decodeWord w = .error .unassignedOpcode ↔ opOf (opcField w) = none := by
  rw [decodeWord]
  split
  case h_1 hnone => simp [hnone]
  case h_2 op hop => split <;> simp [hop]

/-- The opcode bytes of no row of R65 are the ranges R67 (a) lists. -/
theorem opOf_eq_none_iff (b : Byte) :
    opOf b = none ↔
      (0x08 ≤ b.toNat ∧ b.toNat ≤ 0x0F) ∨ (0x12 ≤ b.toNat ∧ b.toNat ≤ 0x1F) ∨ (0x22 ≤ b.toNat ∧ b.toNat ≤ 0x2F) ∨
        (0x32 ≤ b.toNat ∧ b.toNat ≤ 0x3F) ∨ (0x41 ≤ b.toNat ∧ b.toNat ≤ 0xFF) := by
  have hlt := b.isLt
  simp [opOf, Op.all, Op.opcode, BitVec.toNat_eq]
  omega

/-! ### Encoding what the decoder reads -/

/-- A field read from a word and placed back at its bits is the word under the field's mask. -/
theorem placed_extractLsb' (w : CmdWord) (lo n : Nat) :
    placed lo (w.extractLsb' lo n) = w &&& placed lo (BitVec.allOnes n) := by
  apply BitVec.eq_of_getLsbD_eq
  intro k hk
  by_cases hlo : lo ≤ k
  · by_cases hn : k - lo < n <;> simp [getLsbD_placed, hlo, hn, Bool.and_comm]
  · simp [getLsbD_placed, hlo]

/-- The operand fields of a row are the bits outside its mask, so reading and placing them keeps just these bits. -/
theorem operandBits_readOperands (w : CmdWord) (op : Op) :
    operandBits (readOperands w op) = w &&& ~~~(rowOf op).mask := by
  cases op
  case nop | showBuf => exact BitVec.and_zero.symm
  all_goals
    simp only [readOperands, operandBits, wchField, rchField, gchField, lowByteField, colorField,
      factorField, n16Field, placed_extractLsb', ← BitVec.and_or_distrib_left]
    exact congrArg (w &&& ·) (by decide)

/-- Settles O2: the row's bits of the word are its pattern and all the others are operand fields. -/
theorem encodeOfDecodeIsTheWord : Obligations.EncodeOfDecodeIsTheWord := by
  intro w i h
  obtain ⟨hhits, hi⟩ := decodeWord_ok_iff.1 h
  have hbits : w &&& (rowOf i.op).mask = (rowOf i.op).pattern := eq_of_beq hhits
  calc encode i
      = (rowOf i.op).pattern ||| operandBits (readOperands w i.op) := by rw [hi]; rfl
    _ = w &&& (rowOf i.op).mask ||| w &&& ~~~(rowOf i.op).mask := by rw [hbits, operandBits_readOperands]
    _ = w := by rw [← BitVec.and_or_distrib_left, BitVec.or_not_self, BitVec.and_allOnes]

/-- Settles O3: the decoder's two checks are the match of the opcode's row, and there is none in the ranges of R67. -/
theorem decoderAcceptsExactlyTheTableRows : Obligations.DecoderAcceptsExactlyTheTableRows := by
  refine fun w => ⟨decodeWord_ok_iff_legalWord, fun i h => ?_, decodeWord_unassigned_iff.trans (opOf_eq_none_iff _)⟩
  exact ⟨rowOf i.op, rowOf_mem_opcodeTable i.op, (decodeWord_ok_iff.1 h).1, rfl⟩

/-- Settles O4: two rows that match have the word's opcode, and an opcode names one row. -/
theorem tableRowsDoNotOverlap : Obligations.TableRowsDoNotOverlap := by
  intro w r r' hr hr' hhits hhits'
  rw [eq_rowOf_of_mem_opcodeTable hr] at hhits ⊢
  rw [eq_rowOf_of_mem_opcodeTable hr'] at hhits' ⊢
  have hopc : r.op.opcode = r'.op.opcode := (rowOf_hits_iff.1 hhits).1.trans (rowOf_hits_iff.1 hhits').1.symm
  have hop : some r.op = some r'.op := by rw [← opOf_opcode, ← opOf_opcode, hopc]
  rw [Option.some.inj hop]

end Sys2Proof
end

section
/-! Assembler (spec/30_encoding.md R69, R71): an operand is its field's value or an assembly error. -/
namespace Sys2Proof.Machine

/-! ### Operands that fit, and operands that do not (R69) -/

theorem asmField_of_ge {w n : Nat} (h : ¬ n < 2 ^ w) : asmField w n = .error .operandTooWide := if_neg h

theorem lt_of_asmField_ok {w n : Nat} {x : BitVec w} (h : asmField w n = .ok x) : n < 2 ^ w := by
  by_contra hge
  rw [asmField_of_ge hge] at h
  cases h

theorem field_toNat {w n : Nat} (h : n < 2 ^ w) : (BitVec.ofNat w n).toNat = n :=
  (BitVec.toNat_ofNat n w).trans (Nat.mod_eq_of_lt h)

theorem asmOne_fits {w n : Nat} (mk : BitVec w → Instr) (h : n < 2 ^ w) :
    asmOne mk n = .ok (mk (BitVec.ofNat w n)) := by
  rw [asmOne, asmField_of_lt h]

theorem asmOne_tooWide {w n : Nat} (mk : BitVec w → Instr) (h : ¬ n < 2 ^ w) :
    asmOne mk n = .error .operandTooWide := by
  rw [asmOne, asmField_of_ge h]

theorem asmTwo_fits {w v n m : Nat} (mk : BitVec w → BitVec v → Instr) (hn : n < 2 ^ w) (hm : m < 2 ^ v) :
    asmTwo mk n m = .ok (mk (BitVec.ofNat w n) (BitVec.ofNat v m)) := by
  rw [asmTwo, asmField_of_lt hn, asmField_of_lt hm]

theorem asmTwo_tooWide {w v n m : Nat} (mk : BitVec w → BitVec v → Instr) (h : ¬ (n < 2 ^ w ∧ m < 2 ^ v)) :
    asmTwo mk n m = .error .operandTooWide := by
  rw [asmTwo]
  split
  case h_1 hn hm => exact absurd ⟨lt_of_asmField_ok hn, lt_of_asmField_ok hm⟩ h
  case h_2 => rfl

theorem asmPack_fits {w r g b : Nat} (hw : w < 256) (hr : r < 256) (hg : g < 256) (hb : b < 256) :
    asmPack w r g b = .ok (.pack (BitVec.ofNat 8 w) (BitVec.ofNat 8 r) (BitVec.ofNat 8 g) (BitVec.ofNat 8 b)) := by
  rw [asmPack, asmField_of_lt hw, asmField_of_lt hr, asmField_of_lt hg, asmField_of_lt hb]

theorem asmPack_tooWide {w r g b : Nat} (h : ¬ (w < 256 ∧ r < 256 ∧ g < 256 ∧ b < 256)) :
    asmPack w r g b = .error .operandTooWide := by
  rw [asmPack]
  split
  case h_1 hw hr hg hb =>
    exact absurd ⟨lt_of_asmField_ok hw, lt_of_asmField_ok hr, lt_of_asmField_ok hg, lt_of_asmField_ok hb⟩ h
  case h_2 => rfl

/-! ### The obligations -/

/-- Settles O7: every mnemonic with operands assembles through one of three calls, each of which checks every field. -/
theorem assemblerNeverTruncates : Obligations.AssemblerNeverTruncates := by
  refine ⟨fun n c => ⟨fun ⟨hn, hc⟩ => ?setpixFits, fun h => ?setpixWide⟩,
    fun c f => ⟨fun ⟨hc, hf⟩ => ?scaleFits, asmTwo_tooWide _⟩,
    fun s d => ⟨fun ⟨hs, hd⟩ => ?wiperFits, asmTwo_tooWide _⟩,
    fun c => ⟨fun hc => ?getFits, fun h => ?getWide⟩,
    fun n => ⟨fun hn => ?getpixFits, asmOne_tooWide _, fun hn => ?hueFits, asmOne_tooWide _⟩,
    fun w r g b => ⟨fun ⟨hw, hr, hg, hb⟩ => ?packFits, asmPack_tooWide⟩⟩
  case setpixFits =>
    exact ⟨BitVec.ofNat 16 n, BitVec.ofNat 32 c, field_toNat hn, field_toNat hc,
      asmTwo_fits _ hn hc, asmTwo_fits _ hc hn, asmTwo_fits _ hn hc, asmTwo_fits _ hn hc⟩
  case setpixWide =>
    exact ⟨asmTwo_tooWide _ h, asmTwo_tooWide _ (mt And.symm h), asmTwo_tooWide _ h, asmTwo_tooWide _ h⟩
  case scaleFits =>
    exact ⟨_, _, field_toNat hc, field_toNat hf, asmTwo_fits _ hc hf⟩
  case wiperFits =>
    exact ⟨_, _, field_toNat hs, field_toNat hd, asmTwo_fits _ hs hd⟩
  case getFits =>
    exact ⟨_, field_toNat hc, asmOne_fits _ hc, asmOne_fits _ hc, asmOne_fits _ hc, asmOne_fits _ hc⟩
  case getWide => exact ⟨asmOne_tooWide _ h, asmOne_tooWide _ h, asmOne_tooWide _ h, asmOne_tooWide _ h⟩
  case getpixFits => exact ⟨_, field_toNat hn, asmOne_fits _ hn⟩
  case hueFits => exact ⟨_, field_toNat hn, asmOne_fits _ hn⟩
  case packFits =>
    exact ⟨_, _, _, _, field_toNat hw, field_toNat hr, field_toNat hg,
      field_toNat hb, asmPack_fits hw hr hg hb⟩

/-- A line that assembles to a command of a word is decoded from the word again. -/
theorem decodes_back {n : AsmName} {ops : List Nat} {w : CmdWord} {i : Instr} (h : assemble n ops = .ok i)
    (hw : encode i = w) : ∃ i, assemble n ops = .ok i ∧ encode i = w ∧ decodeWord w = .ok i :=
  ⟨i, h, hw, hw ▸ decodeOfEncodeIsTheCommand i⟩

/-- Settles O5: each printed word is the encoding of its line's command, and decoding undoes encoding. -/
theorem workedEncodings : Obligations.WorkedEncodings := by
  intro n ops w h
  simp only [List.mem_cons, List.not_mem_nil, or_false, Prod.mk.injEq] at h
  rcases h with ⟨rfl, rfl, rfl⟩ | ⟨rfl, rfl, rfl⟩ | ⟨rfl, rfl, rfl⟩ | ⟨rfl, rfl, rfl⟩ | ⟨rfl, rfl, rfl⟩ |
    ⟨rfl, rfl, rfl⟩ | ⟨rfl, rfl, rfl⟩ | ⟨rfl, rfl, rfl⟩ | ⟨rfl, rfl, rfl⟩ | ⟨rfl, rfl, rfl⟩ | ⟨rfl, rfl, rfl⟩ <;>
    exact decodes_back rfl rfl

end Sys2Proof.Machine
end

section
/-! Handshakes (spec/60_exceptions.md R180 to R183): which requests stand, what an acknowledgement does to its stage,
and what a step does while a command is in flight or while none is. -/
namespace Sys2Proof.Machine

/-! ### The requests, by the stage (R180, R181) -/

/-- A Display stands exactly in the two stages that wait for `disp_ack`, with the buffer as it is. -/
theorem displayRequest_of_run {s : State} {job : Job} {i : Nat} {stage : Stage} (h : s.phase = .run job i stage) :
    displayRequest s =
      if stage = .awaitDisplay ∨ stage = .awaitFinalDisplay then some (snapshot s.params s.mem) else none := by
  rw [displayRequest, h]
  cases stage <;> rfl

/-- A Wait stands exactly in the stage that waits for `wait_ack`, with the command's delay. -/
theorem waitRequest_of_run {s : State} {job : Job} {i : Nat} {stage : Stage} (h : s.phase = .run job i stage) :
    waitRequest s = if stage = .awaitWait then some job.delay else none := by
  rw [waitRequest, h]
  cases stage <;> rfl

theorem displayRequest_eq_some_iff {s : State} {snap : List Byte} :
    displayRequest s = some snap ↔
      ∃ job i stage, s.phase = .run job i stage ∧ (stage = .awaitDisplay ∨ stage = .awaitFinalDisplay) ∧
        snapshot s.params s.mem = snap := by
  cases hphase : s.phase with
  | idle => simp [displayRequest_of_idle hphase]
  | run job i stage => simp [displayRequest_of_run hphase]

theorem waitRequest_eq_some_iff {s : State} {ms : Half} :
    waitRequest s = some ms ↔ ∃ job i, s.phase = .run job i .awaitWait ∧ job.delay = ms := by
  cases hphase : s.phase with
  | idle => simp [waitRequest_of_idle hphase]
  | run job i stage => simp [waitRequest_of_run hphase]

theorem busy_iff {s : State} : busy s = true ↔ ∃ job i stage, s.phase = .run job i stage := by
  unfold busy
  split <;> simp_all

/-! ### The stages, by the lines -/

/-- A stage looks at the one line it waits for. -/
theorem stageStep_congr {stage : Stage} {l l' : Lines} (job : Job) (i : Nat) (s : State)
    (hdisp : stage = .awaitDisplay ∨ stage = .awaitFinalDisplay → l.dispAck = l'.dispAck)
    (hwait : stage = .awaitWait → l.waitAck = l'.waitAck) :
    stageStep job i stage l s = stageStep job i stage l' s := by
  cases stage with
  | write => rfl
  | awaitDisplay => rw [stageStep, stageStep, hdisp (.inl rfl)]
  | awaitWait => rw [stageStep, stageStep, hwait rfl]
  | awaitFinalDisplay => rw [stageStep, stageStep, hdisp (.inr rfl)]

/-- Without the acknowledgement its stage waits for, a command in flight holds (R180, R181). -/
theorem stageStep_holds {stage : Stage} {l : Lines} (job : Job) (i : Nat) (s : State)
    (h : (stage = .awaitDisplay ∨ stage = .awaitFinalDisplay) ∧ l.dispAck = false ∨
      stage = .awaitWait ∧ l.waitAck = false) :
    stageStep job i stage l s = s := by
  rcases h with ⟨rfl | rfl, hack⟩ | ⟨rfl, hack⟩ <;> simp [stageStep, hack]

theorem stageStep_awaitFinalDisplay {l : Lines} (job : Job) (i : Nat) (s : State) (hack : l.dispAck = true) :
    stageStep job i .awaitFinalDisplay l s = setPhase .idle s := if_pos hack

theorem stageStep_awaitDisplay {job : Job} {l : Lines} (i : Nat) (s : State) (hack : l.dispAck = true)
    (hdelay : job.delay ≠ 0) :
    stageStep job i .awaitDisplay l s = setPhase (.run job i .awaitWait) (emitWait job.delay s) :=
  (if_pos hack).trans (if_neg hdelay)

/-- The acknowledgement of a Wait, and a stage WRITE, bring the wipe to its next pixel. -/
theorem stageStep_wipePixel {job : Job} {f : Nat → Color} {stage : Stage} {l : Lines} (i : Nat) (s : State)
    (hf : jobColor s.params.npix job = some f) (h : stage = .write ∨ stage = .awaitWait ∧ l.waitAck = true) :
    stageStep job i stage l s = wipePixel job f i s := by
  have hwrite : writeStage job i s = wipePixel job f i s := by rw [writeStage_eq, hf]
  rcases h with rfl | ⟨rfl, hack⟩
  · exact hwrite
  · exact (if_pos hack).trans hwrite

/-- While a Display stands a step writes no byte of the buffer (R198). -/
theorem stageStep_mem_of_display {stage : Stage} (job : Job) (i : Nat) (l : Lines) (s : State)
    (h : stage = .awaitDisplay ∨ stage = .awaitFinalDisplay) : (stageStep job i stage l s).mem = s.mem := by
  rcases stageStep_cases job i stage l s with ⟨ht, -⟩ | ⟨ht, -⟩ | ⟨-, -, -, ht⟩ | ⟨hstage, -⟩ | ⟨-, -, ht⟩
  · rw [ht]
  · rw [ht, setPhase_mem]
  · rw [ht, setPhase_mem, emitWait_mem]
  · rcases h with rfl | rfl <;> simp at hstage
  · rw [ht, finalDisplay_mem]

/-- Two samples with one `rst` that the stage in flight answers alike are answered alike by the step. -/
theorem step_congr_lines {s s' : State} (hsample : takeSample s = takeSample s')
    (hrst : (currentLines s).rst = (currentLines s').rst)
    (hstage : ∀ job i stage, s.phase = .run job i stage →
      stageStep job i stage (currentLines s) (takeSample s) = stageStep job i stage (currentLines s') (takeSample s)) :
    step s = step s' := by
  have hphase : s'.phase = s.phase := (congrArg State.phase hsample).symm
  have hcmds : s'.cmds = s.cmds := (congrArg State.cmds hsample).symm
  rcases step_cases (rfl : step s = step s) with ⟨hr, h⟩ | ⟨hr, job, i, stage, hp, h⟩ | ⟨hr, hp, hc, h⟩ |
    ⟨hr, hp, w, ws, i, hc, hd, h⟩ | ⟨hr, hp, w, ws, e, hc, hd, h⟩
  · rw [h, hsample, step_reset (hrst ▸ hr)]
  · rw [h, hstage job i stage hp, hsample, step_run (hrst ▸ hr) (hphase.trans hp)]
  · rw [h, hsample, step_idle (hrst ▸ hr) (hphase.trans hp) (hcmds.trans hc)]
  · rw [h, hsample, step_command (hrst ▸ hr) (hphase.trans hp) (hcmds.trans hc) hd]
  · rw [h, hsample, step_illegal (hrst ▸ hr) (hphase.trans hp) (hcmds.trans hc) hd]

/-! ### The obligations -/

/-- Settles O8: the state of that `exec` is the sampled one with the word taken. -/
theorem stepRunsTheDecodedCommand : Obligations.StepRunsTheDecodedCommand :=
  fun _ _ _ _ hrst hidle hcmds hdecode => step_command hrst hidle hcmds hdecode

/-- Settles O17: of a step there is only the sample of the lines left. -/
theorem idleEngineStaysIdle : Obligations.IdleEngineStaysIdle :=
  fun _ hrst hidle hcmds => step_idle hrst hidle hcmds

/-- Settles O11: a busy engine is reset or makes a step of its command, and neither touches the command port. -/
theorem busyEngineAcceptsNoCommand : Obligations.BusyEngineAcceptsNoCommand := by
  intro s hbusy
  obtain ⟨job, i, stage, hphase⟩ := busy_iff.1 hbusy
  refine ⟨by rw [cmdReady, hbusy, Bool.not_true], ?_⟩
  cases hrst : (currentLines s).rst
  case true => exact ⟨_, step_reset hrst, rfl⟩
  case false =>
    obtain ⟨-, -, -, hcmds, -⟩ := stageStep_frame job i stage (currentLines s) (takeSample s)
    exact ⟨_, step_run hrst hphase, hcmds⟩

/-- Settles O12: each request names the stage it stands in, and the stage without its acknowledgement holds. -/
theorem engineHoldsUntilAcknowledged : Obligations.EngineHoldsUntilAcknowledged := by
  intro s hrst h
  rcases h with ⟨⟨snap, hrequest⟩, hack⟩ | ⟨⟨ms, hrequest⟩, hack⟩
  · obtain ⟨job, i, stage, hphase, hstage, -⟩ := displayRequest_eq_some_iff.1 hrequest
    rw [step_run hrst hphase, stageStep_holds job i _ (.inl ⟨hstage, hack⟩)]
    rfl
  · obtain ⟨job, i, hphase, -⟩ := waitRequest_eq_some_iff.1 hrequest
    rw [step_run hrst hphase, stageStep_holds job i _ (.inr ⟨rfl, hack⟩)]
    rfl

/-- Settles O13: the acknowledged stage only sets the phase. -/
theorem finalDisplayAcknowledgementCompletes : Obligations.FinalDisplayAcknowledgementCompletes := by
  intro s job i hrst hphase hack
  have hstep : step s = .next (setPhase .idle (takeSample s)) := by
    rw [step_run hrst hphase, stageStep_awaitFinalDisplay job i _ hack]
  exact ⟨_, hstep, rfl, fun _ => rfl, rfl, rfl, rfl, rfl, rfl, rfl⟩

/-- Settles O14: the acknowledged stage records the Wait and sets the phase. -/
theorem displayAcknowledgementIssuesWait : Obligations.DisplayAcknowledgementIssuesWait := by
  intro s job i hrst hphase hack hdelay
  have hstep : step s = .next (setPhase (.run job i .awaitWait) (emitWait job.delay (takeSample s))) := by
    rw [step_run hrst hphase, stageStep_awaitDisplay i _ hack hdelay]
  exact ⟨_, hstep, rfl, rfl, rfl, rfl, fun _ => rfl, rfl, rfl, rfl, rfl, rfl⟩

/-- Settles O16: the two samples differ at most in a line that no request stands for, and so the stage ignores. -/
theorem spuriousAcknowledgementIsIgnored : Obligations.SpuriousAcknowledgementIsIgnored := by
  intro s l l' next rest hrst hdisp hwait
  refine step_congr_lines rfl hrst fun job i stage hphase => stageStep_congr job i _ (fun hs => ?disp) fun hs => ?wait
  case disp =>
    rw [displayRequest_of_run (s := s) hphase, if_pos hs] at hdisp
    exact hdisp.resolve_left (Option.some_ne_none _)
  case wait =>
    rw [waitRequest_of_run (s := s) hphase, if_pos hs] at hwait
    exact hwait.resolve_left (Option.some_ne_none _)

/-- Settles O18: in the two stages of a Display a step leaves the buffer, and in every stage the registers. -/
theorem nothingIsWrittenWhileDisplayOutstanding : Obligations.NothingIsWrittenWhileDisplayOutstanding := by
  intro s t snap hrst hrequest ht
  obtain ⟨job, i, stage, hphase, hstage, -⟩ := displayRequest_eq_some_iff.1 hrequest
  rw [step_run hrst hphase] at ht
  cases ht
  have hmem := stageStep_mem_of_display job i (currentLines s) (takeSample s) hstage
  obtain ⟨hparams, hresult, hillegal, hcmds, -⟩ := stageStep_frame job i stage (currentLines s) (takeSample s)
  exact ⟨fun a => congrArg (memRead · a) hmem, hresult, hparams, hillegal, hcmds⟩

end Sys2Proof.Machine
end

section
/-! The invariant `Inv`: every step keeps it, from any state that meets it; construction and reset give it. What it
asks whatever the phase (`Sound`) is kept by each piece of a step, and what it asks of a phase is said once for the
idle engine and for each of the two requests. -/
namespace Sys2Proof.Machine

/-! ### What the invariant asks whatever the phase -/

/-- Legal parameters, a canonical buffer within `BUFLEN`, and Displays and Waits of the right size. -/
structure Sound (s : State) : Prop where
  legal   : s.params.legal = true
  memWf   : s.mem.wf
  bounded : BufferBounded s
  events  : ∀ e ∈ s.events, EventOk s.params e

theorem Inv.sound {s : State} (h : Inv s) : Sound s := ⟨h.legal, h.memWf, h.bounded, h.events⟩

/-- It speaks of the parameters, the buffer and the history only. -/
theorem Sound.congr {s t : State} (h : Sound s) (hparams : t.params = s.params) (hmem : t.mem = s.mem)
    (hevents : t.events = s.events) : Sound t :=
  ⟨hparams ▸ h.legal, hmem ▸ h.memWf, by rw [BufferBounded, hparams, hmem]; exact h.bounded,
    by rw [hparams, hevents]; exact h.events⟩

theorem Sound.setMem {s : State} {m : Memory} (h : Sound s) (hwf : m.wf) (hbounded : ∀ c ∈ m, c.1 < s.params.bufLen) :
    Sound (setMem m s) :=
  ⟨h.legal, hwf, hbounded, h.events⟩

theorem Sound.record {s : State} {e : Event} (h : Sound s) (he : EventOk s.params e) : Sound (record e s) :=
  ⟨h.legal, h.memWf, h.bounded, List.forall_mem_append.2 ⟨h.events, by simpa using he⟩⟩

theorem Sound.emitDisplay {s : State} (h : Sound s) : Sound (emitDisplay s) := h.record (snapshot_length _ _)

theorem Sound.pixWrite {s : State} {i : Nat} (h : Sound s) (hi : i < s.params.npix) (c : Color) :
    Sound (Machine.setMem (Machine.pixWrite s.params i c s.mem) s) :=
  h.setMem (pixWrite_wf h.memWf _ _ _) (pixWrite_bounded h.legal h.bounded hi c)

/-! ### What it asks of the phase -/

/-- An idle engine has no request to show. -/
theorem Sound.inv_of_idle {s : State} (h : Sound s) (hidle : s.phase = .idle) : Inv s where
  legal := h.legal
  memWf := h.memWf
  bounded := h.bounded
  events := h.events
  phaseOk := by rw [hidle]; trivial
  shown := fun _ hrequest => by simp [displayRequest_of_idle hidle] at hrequest
  waiting := fun _ hrequest => by simp [waitRequest_of_idle hidle] at hrequest

theorem Sound.inv_of_idle_congr {s t : State} (h : Sound s) (hparams : t.params = s.params) (hmem : t.mem = s.mem)
    (hevents : t.events = s.events) (hidle : t.phase = .idle) : Inv t :=
  (h.congr hparams hmem hevents).inv_of_idle hidle

/-- A stage that waits for the acknowledgement of the Display just recorded. -/
theorem Sound.inv_of_display {s : State} {job : Job} {i : Nat} {stage : Stage} (h : Sound s)
    (hphase : PhaseOk s.params.npix (.run job i stage)) (hstage : stage ≠ .awaitWait) :
    Inv (setPhase (.run job i stage) (Machine.emitDisplay s)) := by
  have hs : Sound (setPhase (.run job i stage) (Machine.emitDisplay s)) := h.emitDisplay.congr rfl rfl rfl
  refine ⟨hs.legal, hs.memWf, hs.bounded, hphase, hs.events, fun snap hrequest => ?_, fun ms hrequest => ?_⟩
  · obtain ⟨-, -, -, -, -, rfl⟩ := displayRequest_eq_some_iff.1 hrequest
    simp
  · simp [waitRequest_of_run (setPhase_phase _ _), hstage] at hrequest

/-- The stage that waits for the acknowledgement of the Wait just recorded. -/
theorem Sound.inv_of_wait {s : State} {job : Job} {i : Nat} (h : Sound s)
    (hphase : PhaseOk s.params.npix (.run job i .awaitWait)) (hdelay : job.delay ≠ 0) :
    Inv (setPhase (.run job i .awaitWait) (emitWait job.delay s)) := by
  have hs : Sound (setPhase (.run job i .awaitWait) (emitWait job.delay s)) :=
    (h.record (e := .wait job.delay) hdelay).congr rfl rfl rfl
  refine ⟨hs.legal, hs.memWf, hs.bounded, hphase, hs.events, fun snap hrequest => ?_, fun ms hrequest => ?_⟩
  · simp [displayRequest_of_run (setPhase_phase _ _)] at hrequest
  · rw [waitRequest_of_run (setPhase_phase _ _), if_pos rfl, Option.some.injEq] at hrequest
    simp [hrequest]

/-- It does not speak of the lines, of the words offered, nor of the registers. -/
theorem Inv.takeSample {s : State} (h : Inv s) : Inv (takeSample s) :=
  ⟨h.legal, h.memWf, h.bounded, h.phaseOk, h.events, h.shown, h.waiting⟩

/-! ### The phases of a wipe -/

/-- A wipe in flight has an index up to `NPIX`; in its last stage it has no delay, in the others one (R27, R140). -/
theorem phaseOk_wipe {npix i : Nat} {job : Job} {stage : Stage} (hjob : job ≠ .showBuf) :
    PhaseOk npix (.run job i stage) ↔
      0 < npix ∧ i ≤ npix ∧
        match stage with
        | .awaitFinalDisplay => job.delay = 0 ∧ i = npix
        | .write => job.delay ≠ 0 ∧ i < npix
        | .awaitDisplay => job.delay ≠ 0 ∧ 0 < i
        | .awaitWait => job.delay ≠ 0 ∧ 0 < i := by
  cases job with
  | showBuf => exact absurd rfl hjob
  | wipes c d => exact Iff.rfl
  | wiper sh d => exact Iff.rfl

theorem job_ne_showBuf_of_delay {job : Job} (h : job.delay ≠ 0) : job ≠ .showBuf :=
  fun hjob => h (by rw [hjob, Job.delay])

theorem job_ne_showBuf_of_color {npix : Nat} {job : Job} {f : Nat → Color} (h : jobColor npix job = some f) :
    job ≠ .showBuf := by
  rintro rfl
  cases h

/-- Outside its last stage a command in flight is a wipe with a delay. -/
theorem PhaseOk.delay_ne_zero {npix i : Nat} {job : Job} {stage : Stage} (h : PhaseOk npix (.run job i stage))
    (hstage : stage ≠ .awaitFinalDisplay) : job.delay ≠ 0 := by
  have hjob : job ≠ .showBuf := by
    rintro rfl
    exact hstage h.2
  obtain ⟨-, -, hrest⟩ := (phaseOk_wipe hjob).1 h
  cases stage with
  | awaitFinalDisplay => exact absurd rfl hstage
  | write | awaitDisplay | awaitWait => exact hrest.1

/-! ### What keeps the invariant -/

theorem inv_resetEngine {s : State} (h : s.params.legal = true) : Inv (resetEngine s) := by
  refine Sound.inv_of_idle ⟨h, writeBytes_wf memory_nil_wf 0 _, ?bounded, ?events⟩ rfl
  case bounded =>
    exact writeBytes_bounded (fun _ hc => absurd hc List.not_mem_nil) _ (by rw [Nat.zero_add]; exact (legal_init h).le)
  case events => exact fun _ he => absurd he List.not_mem_nil

/-- A constructed engine is one just reset, with its parameters, words and lines (R32, R192). -/
theorem construct_of_legal {p : Params} (h : p.legal = true) (ws : List CmdWord) (ls : List Lines) :
    ∃ s, construct p ws ls = .next (resetEngine s) ∧ s.params = p ∧ s.cmds = ws ∧ s.inputs = ls :=
  ⟨_, if_pos h, rfl, rfl, rfl⟩

/-- A pixel of an animated wipe, written and displayed, leaves the index past it. -/
theorem Sound.inv_of_pixel {s : State} {job : Job} {i : Nat} (h : Sound s) (hi : i < s.params.npix)
    (hdelay : job.delay ≠ 0) (c : Color) :
    Inv (setPhase (.run job (i + 1) .awaitDisplay)
      (Machine.emitDisplay (Machine.setMem (Machine.pixWrite s.params i c s.mem) s))) := by
  refine (h.pixWrite hi c).inv_of_display ((phaseOk_wipe (job_ne_showBuf_of_delay hdelay)).2 ?_) (by decide)
  exact ⟨Nat.zero_lt_of_lt hi, hi, hdelay, Nat.succ_pos i⟩

theorem Inv.stageStep {s : State} {job : Job} {i : Nat} {stage : Stage} (h : Inv s)
    (hphase : s.phase = .run job i stage) (l : Lines) : Inv (stageStep job i stage l s) := by
  have hok : PhaseOk s.params.npix (.run job i stage) := hphase ▸ h.phaseOk
  rcases stageStep_cases job i stage l s with ⟨ht, -⟩ | ⟨ht, -⟩ | ⟨rfl, -, hdelay, ht⟩ | ⟨hstage, hi, f, -, ht⟩ |
    ⟨rfl, hstage, -⟩
  · rw [ht]
    exact h
  · rw [ht]
    exact h.sound.inv_of_idle_congr rfl rfl rfl rfl
  · rw [ht]
    have hjob := job_ne_showBuf_of_delay hdelay
    exact h.sound.inv_of_wait ((phaseOk_wipe hjob).2 ((phaseOk_wipe hjob).1 hok)) hdelay
  · rw [ht]
    refine h.sound.inv_of_pixel hi (hok.delay_ne_zero ?_) (f i)
    rintro rfl
    simp at hstage
  · rw [hok.2] at hstage
    simp at hstage

theorem Sound.inv_of_wipeSequence {s : State} (h : Sound s) (hidle : s.phase = .idle) {job : Job} (f : Nat → Color)
    (hjob : job ≠ .showBuf) : Inv (wipeSequence job f s) := by
  rcases wipeSequence_cases job f s with ⟨-, ht⟩ | ⟨hpos, hdelay, ht⟩ | ⟨hpos, hdelay, ht⟩
  · rw [ht]
    exact h.inv_of_idle hidle
  · rw [ht]
    refine Sound.inv_of_display (h.setMem (pixLoop_wf h.memWf _ _ _ _) ?bounded) ?phase (by decide)
    case bounded => exact pixLoop_bounded h.legal h.bounded f (Nat.zero_add _).le
    case phase => exact (phaseOk_wipe hjob).2 ⟨hpos, Nat.le_refl _, hdelay, rfl⟩
  · rw [ht]
    exact h.inv_of_pixel hpos hdelay (f 0)

theorem Sound.inv_of_exec {i : Instr} {s t : State} (h : Sound s) (hidle : s.phase = .idle) (ht : exec i s = .next t) :
    Inv t := by
  rcases exec_cases ht with rfl | ⟨v, rfl⟩ | ⟨n, c, -, hn, rfl⟩ | ⟨n, c, -, hn, rfl⟩ | ⟨n, c, -, hn, rfl⟩ |
    ⟨job, f, hf, -, rfl⟩ | ⟨-, rfl⟩
  · exact h.inv_of_idle hidle
  · exact h.inv_of_idle_congr rfl rfl rfl hidle
  · exact (h.pixWrite hn c).inv_of_idle hidle
  · exact (h.setMem (scrolledForward_wf h.memWf _ _ _)
      (scrolledForward_bounded h.legal h.bounded (reducedAmount_lt hn).le c)).inv_of_idle hidle
  · exact (h.setMem (scrolledBackward_wf h.memWf _ _ _)
      (scrolledBackward_bounded h.legal h.bounded (reducedAmount_lt hn).le c)).inv_of_idle hidle
  · exact h.inv_of_wipeSequence hidle f (job_ne_showBuf_of_color hf)
  · exact h.inv_of_display ⟨rfl, rfl⟩ (by decide)

/-! ### The obligations -/

/-- Settles O53: reset, a stage, an accepted command and a rejection each keep it; the sample of the lines is no part
of it. -/
theorem stepKeepsTheInvariant : Obligations.StepKeepsTheInvariant := by
  intro s t hinv h
  have hsampled : Inv (Machine.takeSample s) := hinv.takeSample
  rcases step_cases h with ⟨-, ht⟩ | ⟨-, job, i, stage, hphase, ht⟩ | ⟨-, -, -, ht⟩ | ⟨-, hidle, w, ws, i, -, -, ht⟩ |
    ⟨-, hidle, w, ws, e, -, -, ht⟩
  · cases ht
    exact inv_resetEngine hinv.legal
  · cases ht
    exact hsampled.stageStep hphase _
  · cases ht
    exact hsampled
  · exact (hsampled.sound.congr (t := setCmds ws (Machine.takeSample s)) rfl rfl rfl).inv_of_exec hidle ht.symm
  · cases ht
    exact hsampled.sound.inv_of_idle_congr rfl rfl rfl hidle

/-- Settles O55: an engine is constructed only from legal parameters, and then it is one just reset. -/
theorem constructionMeetsTheInvariant : Obligations.ConstructionMeetsTheInvariant := by
  intro p ws ls t h
  by_cases hlegal : p.legal = true
  · obtain ⟨s, hs, rfl, -⟩ := construct_of_legal hlegal ws ls
    cases hs.symm.trans h
    exact inv_resetEngine hlegal
  · cases (construct_refused hlegal ws ls).symm.trans h

/-- Settles O54: `State.reset` is the engine constructed from `Params.reference`. -/
theorem resetMeetsTheInvariant : Obligations.ResetMeetsTheInvariant :=
  constructionMeetsTheInvariant Params.reference [] [Lines.prompt] State.reset rfl

end Sys2Proof.Machine
end

section
/-! Registers (spec/10_state.md R24 to R28) and construction (R6, R136, R192): the bits of `STATUS`, the legal
construction parameters, and which commands write `RESULT` or record an event. -/
namespace Sys2Proof.Machine

/-! ### STATUS -/

theorem busy_eq_false_iff {s : State} : busy s = false ↔ s.phase = .idle := by
  refine ⟨fun h => ?_, busy_of_idle⟩
  cases hphase : s.phase with
  | idle => rfl
  | run job i stage => simp [busy_of_run hphase] at h

/-- The two bits of `STATUS`, and no third (R25). -/
theorem statusWord_bits (s : State) :
    (statusWord s).getLsbD 0 = busy s ∧ (statusWord s).getLsbD 1 = s.illegal ∧ (statusWord s).extractLsb' 2 30 = 0 := by
  rw [statusWord]
  cases busy s <;> cases s.illegal <;> decide

/-- Settles O23: `busy` is the phase, bit by bit. -/
theorem statusRegisterBits : Obligations.StatusRegisterBits := by
  intro s
  obtain ⟨hbusy, hillegal, hrest⟩ := statusWord_bits s
  refine ⟨?_, by rw [hillegal], hrest⟩
  rw [hbusy, ne_eq, ← busy_eq_false_iff, Bool.not_eq_false]

/-- Settles O24: `rd_sel` is compared with 0, 1 and 2 in turn. -/
theorem hostRegisterReads : Obligations.HostRegisterReads :=
  fun _ => ⟨rfl, rfl, rfl, rfl⟩

/-- Settles O19: `State.reset` is a literal, and its strand lists 12 bytes of zero. -/
theorem resetStateHasTheSpecsResetValues : Obligations.ResetStateHasTheSpecsResetValues :=
  ⟨rfl, statusWord_of_idle rfl rfl, rfl, busy_of_idle rfl, rfl, rfl, rfl, displayRequest_of_idle rfl,
    waitRequest_of_idle rfl, cmdReady_of_idle rfl, by decide, rfl⟩

/-! ### Construction (R6, R136, R192) -/

/-- `Params.legal`, with the channel order as the permutation R136 asks for. -/
theorem legal_iff (p : Params) :
    p.legal = true ↔
      p.npix ≤ 65535 ∧
      (if p.layout = .rgbw then
        ({p.order.rOff.val, p.order.gOff.val, p.order.bOff.val, p.order.wOff.val} : Finset Nat) = {0, 1, 2, 3}
      else ({p.order.rOff.val, p.order.gOff.val, p.order.bOff.val} : Finset Nat) = {0, 1, 2}) ∧
      p.init.length = p.npix * if p.layout = .rgbw then 4 else 3 := by
  rw [Params.legal, Bool.and_eq_true, Bool.and_eq_true, decide_eq_true_iff, decide_eq_true_iff, and_assoc,
    Params.bufLen, stride_eq]
  refine and_congr_right' (and_congr_left' ?_)
  cases hlayout : p.layout
  case rgb => rw [if_neg (by decide), legal_rgb_iff]
  case rgbw => rw [if_pos rfl, legal_rgbw_iff]

theorem construct_refused_iff (p : Params) (ws : List CmdWord) (ls : List Lines) :
    construct p ws ls = .refused .illegalParameters ↔ ¬ p.legal = true := by
  refine ⟨fun h hlegal => ?_, fun h => construct_refused h ws ls⟩
  obtain ⟨s, hs, -⟩ := construct_of_legal hlegal ws ls
  cases hs.symm.trans h

/-- Settles O20: `construct` tests `Params.legal`, which is R6 and R136, and from legal parameters it resets. -/
theorem constructionRefusesExactlyIllegalParameters : Obligations.ConstructionRefusesExactlyIllegalParameters := by
  intro p ws ls
  refine ⟨?refused, legal_iff p, fun hnpix hperm hlen => ?constructed⟩
  case refused =>
    rw [construct_refused_iff, legal_iff, not_and_or, not_and_or, Nat.not_le]
  case constructed =>
    have hlegal := (legal_iff p).2 ⟨hnpix, hperm, hlen⟩
    obtain ⟨s, hs, rfl, hcmds, hinputs⟩ := construct_of_legal hlegal ws ls
    exact ⟨_, hs, rfl, snapshot_writeBytes_init hlegal, rfl, statusWord_of_idle rfl rfl, rfl, rfl, hcmds, hinputs⟩

/-! ### What a command writes -/

/-- The commands that write `RESULT` from their operands alone (R106). -/
theorem exec_codec {i : Instr} (h : i.op ∈ [Op.pack, Op.getw, Op.getr, Op.getg, Op.getb, Op.scale, Op.hue]) :
    ∃ v, ∀ s, exec i s = .next (setResult v s) := by
  cases i with
  | pack w r g b => exact ⟨_, fun _ => rfl⟩
  | getw c => exact ⟨_, fun _ => rfl⟩
  | getr c => exact ⟨_, fun _ => rfl⟩
  | getg c => exact ⟨_, fun _ => rfl⟩
  | getb c => exact ⟨_, fun _ => rfl⟩
  | scale c f => exact ⟨_, fun _ => rfl⟩
  | hue p => exact ⟨_, fun _ => rfl⟩
  | nop | setpix | getpix | wipes | wiper | scrlf | scrlb | showBuf => simp [Instr.op] at h

/-- Settles O35: the seven commands write a value of their operands. -/
theorem codecIgnoresLayoutAndBuffer : Obligations.CodecIgnoresLayoutAndBuffer := by
  intro i s s' t t' hop ht ht'
  obtain ⟨v, hv⟩ := exec_codec hop
  cases (hv s).symm.trans ht
  cases (hv s').symm.trans ht'
  rfl

theorem exec_setpix_next {n : Half} {c : Color} {s t : State} (h : exec (.setpix n c) s = .next t) :
    n.toNat < s.params.npix ∧ t = setMem (pixWrite s.params n.toNat c s.mem) s := by
  rcases Nat.lt_or_ge n.toNat s.params.npix with hlt | hge
  · cases (exec_setpix_of_lt hlt c).symm.trans h
    exact ⟨hlt, rfl⟩
  · cases (exec_setpix_of_ge hge c).symm.trans h

theorem exec_getpix_next {n : Half} {s t : State} (h : exec (.getpix n) s = .next t) :
    n.toNat < s.params.npix ∧ t = setResult (pixRead s.params s.mem n.toNat) s := by
  rcases Nat.lt_or_ge n.toNat s.params.npix with hlt | hge
  · cases (exec_getpix_of_lt hlt).symm.trans h
    exact ⟨hlt, rfl⟩
  · cases (exec_getpix_of_ge hge).symm.trans h

/-- The one command that writes `RESULT` from the buffer is GETPIX, and all that write it are among the eight. -/
theorem exec_resultKept {i : Instr} {s t : State} (h : exec i s = .next t)
    (hop : i.op ∉ [Op.pack, Op.getw, Op.getr, Op.getg, Op.getb, Op.scale, Op.hue, Op.getpix]) : ResultKept s t := by
  cases i with
  | nop => cases h; rfl
  | setpix n c => rw [(exec_setpix_next h).2]; rfl
  | wipes c d => cases h; exact (wipeSequence_frame _ _ s).2.1
  | wiper sh d => cases h; exact (wipeSequence_frame _ _ s).2.1
  | scrlf n c => rw [exec_scrlf] at h; split at h <;> cases h <;> rfl
  | scrlb n c => rw [exec_scrlb] at h; split at h <;> cases h <;> rfl
  | showBuf => cases h; rfl
  | pack | getw | getr | getg | getb | scale | hue | getpix => simp [Instr.op] at hop

/-- Settles O26: command by command, in the frames above. -/
theorem onlyEightCommandsWriteResult : Obligations.OnlyEightCommandsWriteResult :=
  fun _ _ _ h hop => exec_resultKept h hop

/-- Settles O51: of what a command can do, only the wipe sequence and SHOW record an event or set the phase. -/
theorem onlyShowAndWipesDisplay : Obligations.OnlyShowAndWipesDisplay := by
  intro i s t h hop
  rcases exec_cases h with rfl | ⟨v, rfl⟩ | ⟨n, c, -, -, rfl⟩ | ⟨n, c, -, -, rfl⟩ | ⟨n, c, -, -, rfl⟩ |
    ⟨job, f, -, rfl, -⟩ | ⟨rfl, -⟩
  iterate 5 exact ⟨rfl, rfl⟩
  · cases job <;> simp [Job.instr, Instr.op] at hop
  · simp [Instr.op] at hop

end Sys2Proof.Machine
end

section
/-! Safety (spec/60_exceptions.md): the sticky `ILLEGAL` (R25, R171), the one fault (R172, R173), the growth of the
event history (R182), and that nothing but reset cancels a command (R27, R191). -/
namespace Sys2Proof.Machine

/-! ### `ILLEGAL` (R25) -/

/-- The decoder rejects only the words no row of the table matches. -/
theorem illegal_of_decodeWord_error {w : CmdWord} {e : Illegal} (h : decodeWord w = .error e) :
    legalWord w = false := by
  by_contra hlegal
  obtain ⟨i, hi⟩ := decodeWord_ok_iff_legalWord.2 (by simpa using hlegal)
  cases hi.symm.trans h

/-- A step keeps `ILLEGAL`, or it is a reset, or it rejects an illegal word and sets it. -/
theorem step_illegal_cases {s t : State} (h : step s = .next t) :
    (currentLines s).rst = true ∧ t.illegal = false ∨ t.illegal = s.illegal ∨
      t.illegal = true ∧ s.phase = .idle ∧ ∃ w ws, s.cmds = w :: ws ∧ legalWord w = false := by
  rcases step_cases h with ⟨hrst, ht⟩ | ⟨-, job, i, stage, -, ht⟩ | ⟨-, -, -, ht⟩ | ⟨-, -, w, ws, i, -, -, ht⟩ |
    ⟨-, hidle, w, ws, e, hcmds, hdecode, ht⟩
  · cases ht
    exact .inl ⟨hrst, rfl⟩
  · cases ht
    obtain ⟨-, -, hillegal, -⟩ := stageStep_frame job i stage (currentLines s) (takeSample s)
    exact .inr (.inl hillegal)
  · cases ht
    exact .inr (.inl rfl)
  · exact .inr (.inl (exec_frame ht.symm).2.1)
  · cases ht
    exact .inr (.inr ⟨rfl, hidle, w, ws, hcmds, illegal_of_decodeWord_error hdecode⟩)

/-- Settles O25: of the three ways a step treats `ILLEGAL` each leaves one clause to show. -/
theorem illegalBitIsSticky : Obligations.IllegalBitIsSticky := by
  intro s t h
  rcases step_illegal_cases h with ⟨hrst, hcleared⟩ | hkept | ⟨hset, hrejected⟩
  · exact ⟨fun _ hlow => absurd hrst (by simp [hlow]), fun _ hset => absurd hset (by simp [hcleared])⟩
  · exact ⟨fun hs _ => hkept.trans hs, fun hs ht => absurd (hkept.symm.trans ht) (by simp [hs])⟩
  · exact ⟨fun _ _ => hset, fun _ _ => hrejected⟩

/-! ### The one fault (R172, R173) -/

theorem exec_ne_refused (i : Instr) (s : State) (r : Refusal) : exec i s ≠ .refused r := by
  cases i with
  | setpix n c =>
    rcases Nat.lt_or_ge n.toNat s.params.npix with hlt | hge
    · simp [exec_setpix_of_lt hlt]
    · simp [exec_setpix_of_ge hge]
  | getpix n =>
    rcases Nat.lt_or_ge n.toNat s.params.npix with hlt | hge
    · simp [exec_getpix_of_lt hlt]
    · simp [exec_getpix_of_ge hge]
  | scrlf n c => rw [exec_scrlf]; split <;> simp
  | scrlb n c => rw [exec_scrlb]; split <;> simp
  | nop | pack | getw | getr | getg | getb | scale | hue | wipes | wiper | showBuf => intro h; cases h

/-- A command faults exactly when it is a SETPIX or GETPIX of an index at or above `NPIX`, and with that index. -/
theorem exec_eq_fault_iff {i : Instr} {s : State} {f : Fault} :
    exec i s = .fault f ↔
      ∃ n, f = .pixelIndexOutOfRange n ∧ s.params.npix ≤ n.toNat ∧ (i = .getpix n ∨ ∃ c, i = .setpix n c) := by
  constructor
  · intro h
    cases i with
    | setpix n c =>
      rcases Nat.lt_or_ge n.toNat s.params.npix with hlt | hge
      · cases (exec_setpix_of_lt hlt c).symm.trans h
      · cases (exec_setpix_of_ge hge c).symm.trans h
        exact ⟨n, rfl, hge, .inr ⟨c, rfl⟩⟩
    | getpix n =>
      rcases Nat.lt_or_ge n.toNat s.params.npix with hlt | hge
      · cases (exec_getpix_of_lt hlt).symm.trans h
      · cases (exec_getpix_of_ge hge).symm.trans h
        exact ⟨n, rfl, hge, .inl rfl⟩
    | scrlf n c => rw [exec_scrlf] at h; split at h <;> cases h
    | scrlb n c => rw [exec_scrlb] at h; split at h <;> cases h
    | nop | pack | getw | getr | getg | getb | scale | hue | wipes | wiper | showBuf => cases h
  · rintro ⟨n, rfl, hge, rfl | ⟨c, rfl⟩⟩
    · exact exec_getpix_of_ge hge
    · exact exec_setpix_of_ge hge c

/-- Settles O39: only the step of an accepted command can answer anything but a next state. -/
theorem onlyOutOfRangeIndexFaults : Obligations.OnlyOutOfRangeIndexFaults := by
  intro s
  refine ⟨fun r h => ?refused, fun f => ⟨fun h => ?fault, ?outOfRange⟩⟩
  case refused =>
    rcases step_cases h with ⟨-, ht⟩ | ⟨-, job, i, stage, -, ht⟩ | ⟨-, -, -, ht⟩ | ⟨-, -, w, ws, i, -, -, ht⟩ |
      ⟨-, -, w, ws, e, -, -, ht⟩
    case inr.inr.inr.inl => exact exec_ne_refused i _ r ht.symm
    all_goals cases ht
  case fault =>
    rcases step_cases h with ⟨-, ht⟩ | ⟨-, job, i, stage, -, ht⟩ | ⟨-, -, -, ht⟩ |
      ⟨hrst, hidle, w, ws, i, hcmds, hdecode, ht⟩ | ⟨-, -, w, ws, e, -, -, ht⟩
    case inr.inr.inr.inl =>
      obtain ⟨n, hf, hge, hi⟩ := exec_eq_fault_iff.1 ht.symm
      refine ⟨hrst, hidle, w, ws, n, hcmds, hf, hge, ?_⟩
      rcases hi with rfl | ⟨c, rfl⟩
      · exact .inl hdecode
      · exact .inr ⟨c, hdecode⟩
    all_goals cases ht
  case outOfRange =>
    rintro ⟨hrst, hidle, w, ws, n, hcmds, hf, hge, hdecode⟩
    obtain ⟨i, hdecode, hi⟩ : ∃ i, decodeWord w = .ok i ∧ (i = .getpix n ∨ ∃ c, i = .setpix n c) :=
      hdecode.elim (fun hd => ⟨_, hd, .inl rfl⟩) fun ⟨c, hd⟩ => ⟨_, hd, .inr ⟨c, rfl⟩⟩
    rw [step_command hrst hidle hcmds hdecode]
    exact exec_eq_fault_iff.2 ⟨n, hf, hge, hi⟩

/-! ### The event history (R182) -/

/-- A history that is as it was, or one event longer. -/
def GrownByAtMostOne (old new : List Event) : Prop := new = old ∨ ∃ e, new = old ++ [e]

theorem stageStep_events (job : Job) (i : Nat) (stage : Stage) (l : Lines) (s : State) :
    GrownByAtMostOne s.events (stageStep job i stage l s).events := by
  rcases stageStep_cases job i stage l s with ⟨h, -⟩ | ⟨h, -⟩ | ⟨-, -, -, h⟩ | ⟨-, -, f, -, h⟩ | ⟨-, -, h⟩ <;> rw [h]
  · exact .inl rfl
  · exact .inl rfl
  · exact .inr ⟨_, rfl⟩
  · exact .inr ⟨_, rfl⟩
  · exact .inr ⟨_, rfl⟩

theorem exec_events {i : Instr} {s t : State} (h : exec i s = .next t) : GrownByAtMostOne s.events t.events := by
  rcases exec_cases h with rfl | ⟨v, rfl⟩ | ⟨n, c, -, -, rfl⟩ | ⟨n, c, -, -, rfl⟩ | ⟨n, c, -, -, rfl⟩ |
    ⟨job, f, -, -, rfl⟩ | ⟨-, rfl⟩
  iterate 5 exact .inl rfl
  · rcases wipeSequence_cases job f s with ⟨-, h⟩ | ⟨-, -, h⟩ | ⟨-, -, h⟩ <;> rw [h]
    · exact .inl rfl
    · exact .inr ⟨_, rfl⟩
    · exact .inr ⟨_, rfl⟩
  · exact .inr ⟨_, rfl⟩

/-- Settles O56: but for reset, a step is a stage, a command, or records nothing. -/
theorem eventHistoryOnlyGrows : Obligations.EventHistoryOnlyGrows := by
  intro s t hrst h
  rcases step_cases h with ⟨hr, -⟩ | ⟨-, job, i, stage, -, ht⟩ | ⟨-, -, -, ht⟩ | ⟨-, -, w, ws, i, -, -, ht⟩ |
    ⟨-, -, w, ws, e, -, -, ht⟩
  · exact absurd hr (by simp [hrst])
  · cases ht
    exact stageStep_events job i stage (currentLines s) (takeSample s)
  · cases ht
    exact .inl rfl
  · exact exec_events (s := setCmds ws (takeSample s)) ht.symm
  · cases ht
    exact .inl rfl

/-! ### No cancellation (R27, R191) -/

/-- Settles O58: a stage that goes idle is acknowledged, and `PhaseOk` leaves it only a last Display or the Wait after
the last pixel. -/
theorem noCancellationButReset : Obligations.NoCancellationButReset := by
  intro s t job i stage hinv hrst hphase h
  have hok : PhaseOk s.params.npix (.run job i stage) := hphase ▸ hinv.phaseOk
  rw [step_run hrst hphase] at h
  cases h
  rcases stageStep_cases job i stage (currentLines s) (takeSample s) with ⟨ht, -⟩ | ⟨ht, hdone⟩ | ⟨-, -, -, ht⟩ |
    ⟨-, -, f, -, ht⟩ | ⟨-, -, ht⟩ <;> rw [ht]
  · exact .inl ⟨i, stage, hphase, Nat.le_refl i, Nat.le_succ i⟩
  · refine .inr ⟨rfl, ?_⟩
    rcases hdone with hfinal | ⟨rfl, -, hdelay⟩ | ⟨rfl, hack, hi⟩ | ⟨rfl, hi⟩
    · exact .inl hfinal
    · exact absurd hdelay (hok.delay_ne_zero (by decide))
    · obtain ⟨-, hle, -⟩ := (phaseOk_wipe (job_ne_showBuf_of_delay (hok.delay_ne_zero (by decide)))).1 hok
      exact .inr ⟨rfl, hack, Nat.le_antisymm hle hi⟩
    · obtain ⟨-, -, -, hlt⟩ := (phaseOk_wipe (job_ne_showBuf_of_delay (hok.delay_ne_zero (by decide)))).1 hok
      exact absurd hi (Nat.not_le_of_lt hlt)
  · exact .inl ⟨i, _, rfl, Nat.le_refl i, Nat.le_succ i⟩
  · exact .inl ⟨i + 1, _, rfl, Nat.le_succ i, Nat.le_refl (i + 1)⟩
  · exact .inl ⟨i, _, rfl, Nat.le_refl i, Nat.le_succ i⟩

end Sys2Proof.Machine
end

section
/-! Laws of the codec, SCALE and HUE: the round trip of R105, the laws of R112, and the hue wheel of R121 to R125. -/
namespace Sys2Proof.Machine

/-! ### The round trip of packing (R105) -/

@[simp] theorem packColor_channels (c : Color) : packColor (chanW c) (chanR c) (chanG c) (chanB c) = c :=
  color_ext (chanW_pack ..) (chanR_pack ..) (chanG_pack ..) (chanB_pack ..)

@[simp] theorem setWidth_zextChannel (x : Byte) : (zextChannel x).setWidth 8 = x :=
  BitVec.setWidth_setWidth_of_le x (by decide)

/-- Settles O30: a packed color has the channels it is packed from, and a color is packed from its channels. -/
theorem packAndUnpackRoundTrip : Obligations.PackAndUnpackRoundTrip := by
  refine ⟨fun w r g b s t ht => ?unpack, fun c s tw tr tg tb hw hr hg hb => ?pack⟩
  case unpack =>
    cases ht
    refine ⟨_, _, _, _, rfl, rfl, rfl, rfl, ?_⟩
    simp only [setResult_result, zextChannel_toNat, chanW_pack, chanR_pack, chanG_pack, chanB_pack, and_self]
  case pack =>
    cases hw
    cases hr
    cases hg
    cases hb
    refine ⟨_, rfl, ?_⟩
    simp only [setResult_result, setWidth_zextChannel, packColor_channels]

/-! ### The laws of SCALE (R112) -/

/-- A color is determined by its four lanes. -/
theorem color_ext_lanes {c d : Color}
    (h : ∀ lane, lane < 4 → c.extractLsb' (8 * lane) 8 = d.extractLsb' (8 * lane) 8) : c = d :=
  color_ext (h 3 (by decide)) (h 2 (by decide)) (h 1 (by decide)) (h 0 (by decide))

theorem scaleColor_lane (c : Color) (f : Byte) {lane : Nat} (h : lane < 4) :
    (scaleColor c f).extractLsb' (8 * lane) 8 = scaleChannel f (c.extractLsb' (8 * lane) 8) :=
  mapChannels_lane _ c h

theorem scaleChannel_full (x : Byte) : scaleChannel 255 x = x := by
  refine BitVec.eq_of_toNat_eq ?_
  rw [scaleChannel_toNat]
  exact Nat.mul_div_cancel x.toNat (by decide)

theorem scaleChannel_black (x : Byte) : scaleChannel 0 x = 0 := by
  refine BitVec.eq_of_toNat_eq ?_
  rw [scaleChannel_toNat]
  exact Nat.div_eq_of_lt (by simpa using x.isLt)

theorem scaleChannel_le (f x : Byte) : (scaleChannel f x).toNat ≤ x.toNat := by
  rw [scaleChannel_toNat]
  exact Nat.div_le_of_le_mul (by rw [Nat.mul_comm 256]; exact Nat.mul_le_mul_left _ f.isLt)

theorem scaleChannel_eq_zero_iff (f x : Byte) : scaleChannel f x = 0 ↔ x.toNat * (f.toNat + 1) < 256 := by
  rw [BitVec.toNat_eq, scaleChannel_toNat]
  exact Nat.div_eq_zero_iff.trans (or_iff_right (by decide))

theorem scaleChannel_mono {f f' x x' : Byte} (hx : x.toNat ≤ x'.toNat) (hf : f.toNat ≤ f'.toNat) :
    (scaleChannel f x).toNat ≤ (scaleChannel f' x').toNat := by
  rw [scaleChannel_toNat, scaleChannel_toNat]
  exact Nat.div_le_div_right (Nat.mul_le_mul hx (Nat.succ_le_succ hf))

/-- Settles O32: each law is one of the channel's, and the channels are scaled alone. -/
theorem scaleLaws : Obligations.ScaleLaws := by
  intro c c' f f' s t t' ht ht'
  cases ht
  cases ht'
  simp only [setResult_result]
  refine ⟨?full, ?black, fun lane hlane => ?lanes⟩
  case full =>
    rintro rfl
    exact color_ext_lanes fun lane hlane => (scaleColor_lane c 255 hlane).trans (scaleChannel_full _)
  case black =>
    rintro rfl
    refine color_ext_lanes fun lane hlane => ?_
    rw [scaleColor_lane c 0 hlane, scaleChannel_black]
    exact BitVec.extractLsb'_zero.symm
  case lanes =>
    rw [scaleColor_lane c f hlane, scaleColor_lane c' f' hlane]
    exact ⟨scaleChannel_le f _, scaleChannel_eq_zero_iff f _, scaleChannel_mono⟩

/-! ### The hue wheel (R121 to R125) -/

/-- The three bands of R121 in terms of the position `n` itself: red to green, green to blue, blue to red. Neighbouring
bands agree at the boundary they share. -/
def OnHueBand (n red green blue : Nat) : Prop :=
  (n ≤ 85 ∧ red + 3 * n = 255 ∧ green = 3 * n ∧ blue = 0) ∨
  (85 ≤ n ∧ n ≤ 170 ∧ red = 0 ∧ green + 3 * n = 510 ∧ blue + 255 = 3 * n) ∨
  (170 ≤ n ∧ n ≤ 255 ∧ red + 510 = 3 * n ∧ green = 0 ∧ blue + 3 * n = 765)

theorem hueBands_onHueBand {n : Nat} (h : n ≤ 255) :
    OnHueBand n (hueBands (255 - n)).1 (hueBands (255 - n)).2.1 (hueBands (255 - n)).2.2 := by
  unfold OnHueBand
  rw [hueBands]
  split
  · dsimp only; omega
  · split <;> dsimp only <;> omega

theorem OnHueBand.lt {n red green blue : Nat} (h : OnHueBand n red green blue) :
    red < 2 ^ 8 ∧ green < 2 ^ 8 ∧ blue < 2 ^ 8 := by
  unfold OnHueBand at h
  omega

/-- The channels of `Hue(p)`: white 0, the others those of the band of `p`, none of which is above 255. -/
theorem hueColor_onHueBand (p : Byte) :
    OnHueBand p.toNat (chanR (hueColor p)).toNat (chanG (hueColor p)).toNat (chanB (hueColor p)).toNat := by
  have hband := hueBands_onHueBand (Nat.le_of_lt_succ p.isLt)
  obtain ⟨hred, hgreen, hblue⟩ := hband.lt
  simp only [hueColor, chanR_pack, chanG_pack, chanB_pack]
  rwa [field_toNat hred, field_toNat hgreen, field_toNat hblue]

/-- One channel is lit, in full, at the boundaries of the bands, and two inside each band (R123). -/
theorem OnHueBand.lit {n red green blue : Nat} (h : OnHueBand n red green blue) :
    if n ∈ [0, 85, 170, 255] then [red, green, blue].filter (· ≠ 0) = [255]
    else ([red, green, blue].filter (· ≠ 0)).length = 2 := by
  unfold OnHueBand at h
  split
  case isTrue hn =>
    simp only [List.mem_cons, List.not_mem_nil, or_false] at hn
    rcases hn with rfl | rfl | rfl | rfl
    · obtain ⟨rfl, rfl, rfl⟩ : red = 255 ∧ green = 0 ∧ blue = 0 := by omega
      rfl
    · obtain ⟨rfl, rfl, rfl⟩ : red = 0 ∧ green = 255 ∧ blue = 0 := by omega
      rfl
    · obtain ⟨rfl, rfl, rfl⟩ : red = 0 ∧ green = 0 ∧ blue = 255 := by omega
      rfl
    · obtain ⟨rfl, rfl, rfl⟩ : red = 255 ∧ green = 0 ∧ blue = 0 := by omega
      rfl
  case isFalse hn =>
    simp only [List.mem_cons, List.not_mem_nil, or_false, not_or] at hn
    rcases h with h | h | h
    · obtain ⟨hred, hgreen, rfl⟩ : red ≠ 0 ∧ green ≠ 0 ∧ blue = 0 := by omega
      simp [hred, hgreen]
    · obtain ⟨rfl, hgreen, hblue⟩ : red = 0 ∧ green ≠ 0 ∧ blue ≠ 0 := by omega
      simp [hgreen, hblue]
    · obtain ⟨hred, rfl, hblue⟩ : red ≠ 0 ∧ green = 0 ∧ blue ≠ 0 := by omega
      simp [hred, hblue]

@[simp] theorem chanW_hueColor (p : Byte) : chanW (hueColor p) = 0 := chanW_pack ..

theorem hueColor_toNat (p : Byte) :
    (hueColor p).toNat = (chanR (hueColor p)).toNat * 2 ^ 16 + (chanG (hueColor p)).toNat * 2 ^ 8 +
      (chanB (hueColor p)).toNat := by
  rw [color_toNat, chanW_hueColor]
  simp

/-- Settles O33: the value of a color is the sum of its channels at their places, here those of the position's band. -/
theorem hueFollowsTheThreeBands : Obligations.HueFollowsTheThreeBands := by
  intro p s
  refine ⟨?word, setResult (hueColor p) s, rfl, onlyResult_setResult _ s, ?bands⟩
  case word =>
    have hoperand : (operandBits (.hue p)).toNat = p.toNat * 2 ^ 0 := placed_toNat 0 p (by decide)
    rw [encode_toNat, hoperand, Nat.pow_zero, Nat.mul_one]
    rfl
  case bands =>
    have hband := hueColor_onHueBand p
    unfold OnHueBand at hband
    rw [setResult_result, hueColor_toNat]
    dsimp only
    split
    · omega
    · split <;> omega

/-- Settles O34: each law is linear arithmetic on the band of the position, or on those of two consecutive positions. -/
theorem hueLaws : Obligations.HueLaws := by
  intro p red green blue lit
  have hbandAt : ∀ q : Byte, OnHueBand q.toNat (red q) (green q) (blue q) := hueColor_onHueBand
  have hband := hbandAt p
  have hlit := hband.lit
  have hnext : p.toNat < 255 → OnHueBand (p.toNat + 1) (red (p + 1)) (green (p + 1)) (blue (p + 1)) := by
    intro hp
    have hsucc : (p + 1).toNat = p.toNat + 1 := BitVec.toNat_add_of_lt (by simpa using Nat.succ_lt_succ hp)
    exact hsucc ▸ hbandAt (p + 1)
  unfold OnHueBand at hband hnext
  exact ⟨chanW_hueColor p, by omega, by omega, by omega, by omega, hlit, fun _ => by omega, fun _ => by omega,
    fun _ => by omega, by decide, by decide, by decide, by decide⟩

end Sys2Proof.Machine
end

section
/-! Laws of the pixels and the scrolls: reading after writing (spec/43_channel_multiplexer.md R131), repeated commands
(spec/20_memory.md R47), the strand of no pixels (R140, R142, R150), and the scroll laws of R154. -/
namespace Sys2Proof.Machine

/-! ### Pixels -/

theorem storedColor_eq (p : Params) (c : Color) :
    storedColor p c = if p.layout = .rgbw then c else c &&& 0x00FFFFFF#32 := by
  unfold storedColor
  cases p.layout <;> rfl

/-- Reading a pixel looks at its bytes only (R131). -/
theorem pixRead_congr {p : Params} (h : p.legal = true) {m m' : Memory} {i : Nat} (hsame : PixelSame p m i m' i) :
    pixRead p m i = pixRead p m' i := by
  obtain ⟨⟨hr, hg, hb⟩, -, hw⟩ := order_legal_offsets (legal_order h)
  unfold pixRead
  cases hlayout : p.layout
  case rgb => simp only [hsame _ hr, hsame _ hg, hsame _ hb]
  case rgbw => simp only [hsame _ hr, hsame _ hg, hsame _ hb, hsame _ (hw hlayout).1]

/-- Writing a pixel leaves every other pixel as it was (R130). -/
theorem pixWrite_pixelSame {p : Params} (h : p.legal = true) {i j : Nat} (hij : j ≠ i) (c : Color) (m : Memory) :
    PixelSame p (pixWrite p i c m) j m j := by
  intro k hk
  refine memRead_pixWrite_outside h i c m ?_
  rcases Nat.lt_or_gt_of_ne hij with hlt | hgt
  · have := pixel_before (p := p) hlt
    omega
  · have := pixel_before (p := p) hgt
    omega

/-- Writing a pixel twice is writing it once. -/
theorem pixWrite_idem {m : Memory} (h : m.wf) (p : Params) (i : Nat) (c : Color) :
    pixWrite p i c (pixWrite p i c m) = pixWrite p i c m := by
  refine memory_ext (pixWrite_wf (pixWrite_wf h p i c) p i c) (pixWrite_wf h p i c) fun a => ?_
  simp only [memRead_pixWrite]
  split
  · cases pixByte p c (a - i * p.stride) <;> rfl
  · rfl

/-- Settles O38: the written pixel holds the color, and any other pixel has the bytes it had. -/
theorem getpixAfterSetpix : Obligations.GetpixAfterSetpix := by
  intro n k c s t hlegal hk ht
  obtain ⟨-, rfl⟩ := exec_setpix_next ht
  refine ⟨_, _, exec_getpix_of_lt hk, exec_getpix_of_lt (s := setMem _ s) hk, ?same, fun hkn => ?other⟩
  case same =>
    rintro rfl
    exact (pixRead_of_holds (pixWrite_holds hlegal _ c s.mem)).trans (storedColor_eq _ c)
  case other =>
    exact pixRead_congr hlegal (pixWrite_pixelSame hlegal (fun h => hkn (BitVec.eq_of_toNat_eq h)) c s.mem)

/-- Settles O52: a command that writes `RESULT` reads nothing it writes, and a pixel is written alike twice. -/
theorem repeatedCommandsAreIdempotent : Obligations.RepeatedCommandsAreIdempotent := by
  intro i s t hwf hop h
  by_cases hcodec : i.op ∈ [Op.pack, Op.getw, Op.getr, Op.getg, Op.getb, Op.scale, Op.hue]
  case pos =>
    obtain ⟨v, hv⟩ := exec_codec hcodec
    cases (hv s).symm.trans h
    exact hv (setResult v s)
  case neg =>
    cases i with
    | nop => rfl
    | setpix n c =>
      obtain ⟨hlt, rfl⟩ := exec_setpix_next h
      have htwice := exec_setpix_of_lt (s := setMem (pixWrite s.params n.toNat c s.mem) s) hlt c
      rwa [setMem_mem, setMem_params, pixWrite_idem hwf] at htwice
    | getpix n =>
      obtain ⟨hlt, rfl⟩ := exec_getpix_next h
      exact exec_getpix_of_lt (s := setResult _ s) hlt
    | pack | getw | getr | getg | getb | scale | hue => simp [Instr.op] at hcodec
    | wipes | wiper | scrlf | scrlb | showBuf => simp [Instr.op] at hop

/-! ### A strand of no pixels -/

theorem wipeSequence_of_npix_zero (job : Job) (f : Nat → Color) {s : State} (h : s.params.npix = 0) :
    wipeSequence job f s = s := if_pos h

theorem reducedAmount_of_npix_zero {npix : Nat} (amount : Half) (h : npix = 0) :
    reducedAmount npix amount = 0 := if_pos h

/-- Settles O40: the wipe sequence and the reduced amount test for it first. -/
theorem zeroLengthStrandIsANoOp : Obligations.ZeroLengthStrandIsANoOp := by
  intro s c n d sh h
  exact ⟨congrArg _ (wipeSequence_of_npix_zero _ _ h), congrArg _ (wipeSequence_of_npix_zero _ _ h),
    (exec_scrlf n c s).trans (if_pos (reducedAmount_of_npix_zero n h)),
    (exec_scrlb n c s).trans (if_pos (reducedAmount_of_npix_zero n h))⟩

/-! ### The laws of the scrolls (R154) -/

theorem reducedAmount_of_npix_pos {npix : Nat} (amount : Half) (h : 0 < npix) :
    reducedAmount npix amount = amount.toNat % npix := if_neg h.ne'

theorem exec_scrlf_of_pos {n : Half} {s : State} (hnpix : 0 < s.params.npix) (h : 0 < n.toNat % s.params.npix)
    (c : Color) :
    exec (.scrlf n c) s = .next (setMem (scrolledForward s.params (n.toNat % s.params.npix) c s.mem) s) := by
  rw [exec_scrlf, reducedAmount_of_npix_pos n hnpix, if_neg h.ne']

theorem exec_scrlb_of_pos {n : Half} {s : State} (hnpix : 0 < s.params.npix) (h : 0 < n.toNat % s.params.npix)
    (c : Color) :
    exec (.scrlb n c) s = .next (setMem (scrolledBackward s.params (n.toNat % s.params.npix) c s.mem) s) := by
  rw [exec_scrlb, reducedAmount_of_npix_pos n hnpix, if_neg h.ne']

/-- Settles O47: pixel `j` moves to `j + a` and back, while the backward scroll fills the trailing pixels. -/
theorem scrollForwardThenBackwardLosesTheEnd : Obligations.ScrollForwardThenBackwardLosesTheEnd := by
  intro n c s t hlegal hnpix hpos ht
  cases (exec_scrlf_of_pos hnpix hpos c).symm.trans ht
  have hback := exec_scrlb_of_pos (s := setMem (scrolledForward s.params (n.toNat % s.params.npix) c s.mem) s)
    hnpix hpos c
  refine ⟨_, hback, fun j hj => ?restored, fun j haj hj => scrolledBackward_fill hlegal c _ haj hj⟩
  case restored =>
    have hforth := scrolledForward_shift hlegal c s.mem (j := j + n.toNat % s.params.npix) (Nat.le_add_left _ j)
      (by omega)
    rw [Nat.add_sub_cancel] at hforth
    exact (scrolledBackward_shift hlegal c _ hj).trans hforth

/-- GETPIX of a pixel that holds a color gives the color as the layout stores it (R131, R133). -/
theorem exec_getpix_of_holds {k : Half} {c : Color} {s : State} (hk : k.toNat < s.params.npix)
    (h : PixelHolds s.params s.mem k.toNat c) :
    ∃ u, exec (.getpix k) s = .next u ∧ u.result = storedColor s.params c :=
  ⟨_, exec_getpix_of_lt hk, pixRead_of_holds h⟩

/-- Settles O48: the fill region holds the fill color, so there is an amount to scroll by. -/
theorem scrollFillReadsBack : Obligations.ScrollFillReadsBack := by
  intro n k c s t hlegal hnpix
  have hamount : n.toNat % s.params.npix < s.params.npix := Nat.mod_lt _ hnpix
  refine ⟨fun ht hk => ?forward, fun ht hak hk => ?backward⟩
  case forward =>
    cases (exec_scrlf_of_pos hnpix (Nat.zero_lt_of_lt hk) c).symm.trans ht
    exact exec_getpix_of_holds (s := setMem _ s) (hk.trans hamount) (scrolledForward_fill hlegal c s.mem hk)
  case backward =>
    cases (exec_scrlb_of_pos hnpix (by omega) c).symm.trans ht
    exact exec_getpix_of_holds (s := setMem _ s) hk (scrolledBackward_fill hlegal c s.mem hak hk)

end Sys2Proof.Machine
end

section
/-! Wipes (spec/44_wipes.md): the words of WIPES and WIPER, what the accepting step of a wipe does, with a delay and
without, and what the acknowledgement of a Wait does (R140 to R143). -/
namespace Sys2Proof.Machine

/-! ### The words and the colors -/

theorem encode_wipes_toNat (c : Color) (d : Half) :
    (encode (.wipes c d)).toNat = 0x20 * 2 ^ 56 + d.toNat * 2 ^ 32 + c.toNat :=
  encode_toNat_of_field_color (by decide) rfl

theorem encode_wiper_toNat (sh : Byte) (d : Half) :
    (encode (.wiper sh d)).toNat = 0x21 * 2 ^ 56 + d.toNat * 2 ^ 32 + sh.toNat := by
  have hdisjoint := placed_disjoint d sh (lo := 32) (lo' := 0) (.inr (by decide))
  have hoperands : (operandBits (.wiper sh d)).toNat = d.toNat * 2 ^ 32 + sh.toNat * 2 ^ 0 := by
    rw [operandBits, or_toNat_of_disjoint hdisjoint, placed_toNat 32 d (by decide), placed_toNat 0 sh (by decide)]
  rw [encode_toNat, hoperands, Nat.pow_zero, Nat.mul_one, Nat.add_assoc]
  rfl

theorem rainbowPos_toNat (npix : Nat) (sh : Byte) (i : Nat) :
    (rainbowPos npix sh i).toNat = (sh.toNat + i * 256 / npix) % 256 :=
  field_toNat (Nat.mod_lt _ (by decide))

/-- The wheel starts at `SHIFT` (R142). -/
theorem rainbowColor_zero (npix : Nat) (sh : Byte) : rainbowColor npix sh 0 = hueColor sh := by
  have hpos : rainbowPos npix sh 0 = sh := by
    refine BitVec.eq_of_toNat_eq ?_
    rw [rainbowPos_toNat, Nat.zero_mul, Nat.zero_div]
    exact Nat.mod_eq_of_lt sh.isLt
  rw [rainbowColor, hpos]

theorem exists_jobColor {job : Job} (h : job ≠ .showBuf) (npix : Nat) : ∃ f, jobColor npix job = some f := by
  cases job with
  | showBuf => exact absurd rfl h
  | wipes c d => exact ⟨_, rfl⟩
  | wiper sh d => exact ⟨_, rfl⟩

/-! ### One pixel, and the whole strand -/

/-- One event was emitted: a Display of the buffer as it now is (R180). -/
def OneDisplay (s t : State) : Prop := t.events = s.events ++ [.display (snapshot t.params t.mem)]

/-- A Display of the buffer as it is stands (R180). -/
def DisplayStands (s : State) : Prop := displayRequest s = some (snapshot s.params s.mem)

theorem wipePixel_of_lt {i : Nat} {s : State} (h : i < s.params.npix) (job : Job) (f : Nat → Color) :
    wipePixel job f i s =
      setPhase (.run job (i + 1) .awaitDisplay) (emitDisplay (setMem (pixWrite s.params i (f i) s.mem) s)) := if_pos h

theorem wipePixel_of_ge {i : Nat} {s : State} (h : s.params.npix ≤ i) (job : Job) (f : Nat → Color) :
    wipePixel job f i s = setPhase .idle s := if_neg (Nat.not_lt_of_le h)

/-- A pixel of an animated wipe is written, alone, and displayed, and the index is past it (R140, R141). -/
theorem wipePixel_shows {i : Nat} {s : State} (hlegal : s.params.legal = true) (hi : i < s.params.npix) (job : Job)
    (f : Nat → Color) :
    (wipePixel job f i s).phase = .run job (i + 1) .awaitDisplay ∧
    PixelHolds s.params (wipePixel job f i s).mem i (f i) ∧
    BufferKeptOutside (i * s.params.stride) s.params.stride s (wipePixel job f i s) ∧
    OneDisplay s (wipePixel job f i s) ∧ DisplayStands (wipePixel job f i s) := by
  rw [wipePixel_of_lt hi]
  exact ⟨rfl, pixWrite_holds hlegal i (f i) s.mem, fun _ ha => memRead_pixWrite_outside hlegal i (f i) s.mem ha,
    rfl, rfl⟩

theorem wipeSequence_animated {job : Job} {s : State} (hpos : 0 < s.params.npix) (hdelay : job.delay ≠ 0)
    (f : Nat → Color) : wipeSequence job f s = wipePixel job f 0 s :=
  (if_neg hpos.ne').trans (if_neg hdelay)

theorem wipeSequence_instant {job : Job} {s : State} (hpos : 0 < s.params.npix) (hdelay : job.delay = 0)
    (f : Nat → Color) :
    wipeSequence job f s = finalDisplay job s.params.npix (setMem (pixLoop s.params f 0 s.params.npix s.mem) s) :=
  (if_neg hpos.ne').trans (if_pos hdelay)

/-- A wipe with no delay writes every pixel and displays once (R140). -/
theorem wipeSequence_instant_shows {job : Job} {s : State} (hlegal : s.params.legal = true) (hpos : 0 < s.params.npix)
    (hdelay : job.delay = 0) (f : Nat → Color) :
    OnlyDisplays s (wipeSequence job f s) ∧
    (∀ i, i < s.params.npix → PixelHolds s.params (wipeSequence job f s).mem i (f i)) ∧
    BufferKeptOutside 0 s.params.bufLen s (wipeSequence job f s) ∧
    OneDisplay s (wipeSequence job f s) ∧
    (wipeSequence job f s).phase = .run job s.params.npix .awaitFinalDisplay ∧
    DisplayStands (wipeSequence job f s) := by
  refine ⟨wipeSequence_frame job f s, ?_⟩
  rw [wipeSequence_instant hpos hdelay]
  refine ⟨fun i hi => pixLoop_holds hlegal f 0 s.params.npix s.mem (Nat.zero_le i) (by omega), fun a ha => ?outside,
    rfl, rfl, rfl⟩
  case outside =>
    have hbeyond : (0 + s.params.npix) * s.params.stride ≤ a := by
      rw [Nat.zero_add]
      exact Nat.le_of_not_lt fun hlt => ha ⟨Nat.zero_le a, by rwa [Nat.zero_add]⟩
    exact memRead_pixLoop_outside hlegal f 0 s.params.npix s.mem (.inr hbeyond)

/-! ### The obligations -/

/-- Settles O41: the instant wipe of one color. -/
theorem instantWipeSetsEveryPixel : Obligations.InstantWipeSetsEveryPixel := by
  intro c s hlegal hpos
  refine ⟨?word, _, rfl, wipeSequence_instant_shows hlegal hpos rfl (fun _ => c)⟩
  case word => simpa using encode_wipes_toNat c 0

/-- Settles O42: the instant wipe of the rainbow's colors. -/
theorem instantRainbowSpansTheWheel : Obligations.InstantRainbowSpansTheWheel := by
  intro sh s hlegal hpos
  obtain ⟨hframe, hpixels, hrest⟩ :=
    wipeSequence_instant_shows (job := .wiper sh 0) hlegal hpos rfl (rainbowColor s.params.npix sh)
  refine ⟨?word, _, rfl, hframe, fun i hi => ⟨_, rainbowPos_toNat _ sh i, hpixels i hi⟩, hrest⟩
  case word => simpa using encode_wiper_toNat sh 0

/-- An accepted wipe with a delay writes and displays pixel 0 (R140). -/
theorem wipeSequence_animated_shows {job : Job} {s : State} (hlegal : s.params.legal = true) (hpos : 0 < s.params.npix)
    (hdelay : job.delay ≠ 0) (f : Nat → Color) :
    OnlyDisplays s (wipeSequence job f s) ∧ PixelHolds s.params (wipeSequence job f s).mem 0 (f 0) ∧
    BufferKeptOutside 0 s.params.stride s (wipeSequence job f s) ∧
    OneDisplay s (wipeSequence job f s) ∧
    (wipeSequence job f s).phase = .run job 1 .awaitDisplay := by
  refine ⟨wipeSequence_frame job f s, ?_⟩
  rw [wipeSequence_animated hpos hdelay]
  obtain ⟨hphase, hpixel, houtside, hevents, -⟩ := wipePixel_shows hlegal hpos job f
  rw [Nat.zero_mul] at houtside
  exact ⟨hpixel, houtside, hevents, hphase⟩

/-- Settles O43: of the rainbow's colors pixel 0 has the hue at `SHIFT`. -/
theorem animatedWipeStartsWithPixelZero : Obligations.AnimatedWipeStartsWithPixelZero := by
  intro c sh d s hlegal hpos hdelay
  refine ⟨encode_wipes_toNat c d, encode_wiper_toNat sh d, ⟨_, rfl, ?wipes⟩, ⟨_, rfl, ?wiper⟩⟩
  case wipes => exact wipeSequence_animated_shows (job := .wipes c d) hlegal hpos hdelay _
  case wiper =>
    rw [← rainbowColor_zero s.params.npix sh]
    exact wipeSequence_animated_shows (job := .wiper sh d) hlegal hpos hdelay _

/-- Settles O15: the acknowledged stage is the wipe's next pixel on the sampled state. -/
theorem waitAcknowledgementWritesTheNextPixel : Obligations.WaitAcknowledgementWritesTheNextPixel := by
  intro s job i hlegal hrst hphase hack hjob
  obtain ⟨f, hf⟩ := exists_jobColor hjob s.params.npix
  have hstage : stageStep job i .awaitWait (currentLines s) (takeSample s) = wipePixel job f i (takeSample s) :=
    stageStep_wipePixel i _ hf (.inr ⟨rfl, hack⟩)
  have hframe := hstage ▸ stageStep_frame job i .awaitWait (currentLines s) (takeSample s)
  refine ⟨_, (step_run hrst hphase).trans (congrArg _ hstage), hframe, fun hi => ?next, fun hi => ?done⟩
  case next =>
    obtain ⟨hphase', hpixel, houtside, hshown⟩ := wipePixel_shows (s := takeSample s) hlegal hi job f
    refine ⟨hphase', ?color, ?hue, houtside, hshown⟩
    case color =>
      rintro c d rfl
      cases hf
      exact hpixel
    case hue =>
      rintro sh d rfl
      cases hf
      exact ⟨_, rainbowPos_toNat _ sh i, hpixel⟩
  case done =>
    rw [wipePixel_of_ge (s := takeSample s) hi]
    exact ⟨rfl, fun _ => rfl, rfl⟩

end Sys2Proof.Machine
end

section
/-! Runs of a command in flight under collaborators that acknowledge at once (spec/44_wipes.md R140, R141, R145,
spec/10_state.md R27): two steps a pixel, and the last Wait ends the wipe. -/
namespace Sys2Proof.Machine

/-! ### Single steps -/

theorem step_run_prompt {s : State} {job : Job} {i : Nat} {stage : Stage} (h : PromptLines s)
    (hphase : s.phase = .run job i stage) : step s = .next (stageStep job i stage Lines.prompt s) := by
  obtain ⟨hlines, hsample⟩ := prompt_lines h
  rw [step_run (by rw [hlines]; rfl) hphase, hlines, hsample]

/-- The engine once the Display of an iteration is acknowledged: the Wait is issued and held for (R181). -/
def waitIssued (job : Job) (i : Nat) (s : State) : State := setPhase (.run job i .awaitWait) (emitWait job.delay s)

theorem step_waiting_prompt {s : State} {job : Job} {f : Nat → Color} {i : Nat} (h : PromptLines s)
    (hphase : s.phase = .run job i .awaitWait) (hf : jobColor s.params.npix job = some f) :
    step s = .next (wipePixel job f i s) := by
  rw [step_run_prompt h hphase, stageStep_wipePixel i s hf (.inr ⟨rfl, rfl⟩)]

/-- The Display of a pixel is acknowledged, then its Wait, and the wipe is at its next pixel. -/
theorem run_two_prompt {s : State} {job : Job} {f : Nat → Color} {i : Nat} (h : PromptLines s)
    (hphase : s.phase = .run job i .awaitDisplay) (hdelay : job.delay ≠ 0) (hf : jobColor s.params.npix job = some f) :
    core.run 2 s = .next (wipePixel job f i (waitIssued job i s)) := by
  have hdisplay : step s = .next (waitIssued job i s) := by
    rw [step_run_prompt h hphase, stageStep_awaitDisplay i s rfl hdelay, waitIssued]
  have hwait := step_waiting_prompt (s := waitIssued job i s) h rfl hf
  rw [run_succ 1 hdisplay, run_succ 0 hwait, run_zero]

/-! ### From the Display of a pixel to the end of the wipe -/

/-- The events of `n` more pixels from pixel `k`, on a buffer `m` with the pixels before it written (R141). -/
def pixelEvents (p : Params) (f : Nat → Color) (d : Half) : Nat → Nat → Memory → List Event
  | _, 0, _ => []
  | k, n + 1, m =>
    .display (snapshot p (pixWrite p k (f k) m)) :: .wait d :: pixelEvents p f d (k + 1) n (pixWrite p k (f k) m)

theorem wipedTo_succ (p : Params) (f : Nat → Color) (m : Memory) (k : Nat) :
    wipedTo p f m (k + 1) = pixWrite p k (f k) (wipedTo p f m k) := by
  rw [wipedTo, pixLoop_succ, Nat.zero_add]
  rfl

theorem pixelEvents_wipedTo (p : Params) (f : Nat → Color) (d : Half) (m : Memory) (k n : Nat) :
    pixelEvents p f d k n (wipedTo p f m k) = wipeEvents p f d m k n := by
  induction n generalizing k with
  | zero => rfl
  | succ n ih => rw [pixelEvents, wipeEvents, ← wipedTo_succ, ih]

/-- The engine after a wipe's remaining `n` pixels from pixel `k`, with the Wait of the pixel before still to come. -/
def wipeDone (f : Nat → Color) (d : Half) (k n : Nat) (s : State) : State :=
  { s with
    mem := pixLoop s.params f k n s.mem
    phase := .idle
    events := s.events ++ .wait d :: pixelEvents s.params f d k n s.mem }

/-- Two steps for each remaining pixel, and two for the one displayed. -/
theorem run_wipe {job : Job} {f : Nat → Color} (hdelay : job.delay ≠ 0) (n : Nat) {k : Nat} {s : State}
    (h : PromptLines s) (hphase : s.phase = .run job k .awaitDisplay) (hf : jobColor s.params.npix job = some f)
    (hk : s.params.npix = k + n) : core.run (2 * n + 2) s = .next (wipeDone f job.delay k n s) := by
  induction n generalizing k s with
  | zero =>
    have hlast := run_two_prompt h hphase hdelay hf
    rwa [wipePixel_of_ge (i := k) (s := waitIssued job k s) hk.le] at hlast
  | succ n ih =>
    have hpixel := run_two_prompt h hphase hdelay hf
    rw [wipePixel_of_lt (s := waitIssued job k s) (by show k < s.params.npix; omega)] at hpixel
    have hrest := ih (k := k + 1) (s := setPhase (.run job (k + 1) .awaitDisplay)
      (emitDisplay (setMem (pixWrite s.params k (f k) s.mem) (waitIssued job k s)))) h rfl hf
      (by show s.params.npix = k + 1 + n; omega)
    rw [show 2 * (n + 1) + 2 = 2 + (2 * n + 2) by omega, run_add (2 * n + 2) hpixel]
    refine hrest.trans (congrArg _ (state_ext rfl rfl rfl rfl rfl ?_ rfl rfl))
    simp [wipeDone, waitIssued, pixelEvents]

/-! ### An accepted wipe -/

/-- A command in flight is accepted as the wipe sequence of its colors. -/
theorem exec_job {job : Job} {f : Nat → Color} {s : State} (hf : jobColor s.params.npix job = some f) :
    exec job.instr s = .next (wipeSequence job f s) := by
  cases job with
  | showBuf => cases hf
  | wipes c d => cases hf; rfl
  | wiper sh d => cases hf; rfl

/-- The colors R140 and R142 give a wipe are those the engine gives it: `ofNat 8` is the remainder by 256. -/
theorem jobColor_of_spec {job : Job} {f : Nat → Color} {npix : Nat}
    (h : (∃ c d, job = .wipes c d ∧ f = fun _ => c) ∨
      ∃ sh d, job = .wiper sh d ∧ ∀ i, f i = hueColor (BitVec.ofNat 8 (sh.toNat + i * 256 / npix))) :
    jobColor npix job = some f := by
  rcases h with ⟨c, d, rfl, rfl⟩ | ⟨sh, d, rfl, hf⟩
  · rfl
  · refine congrArg some (funext fun i => ?_)
    rw [hf i, rainbowColor]
    refine congrArg hueColor (BitVec.eq_of_toNat_eq ?_)
    rw [rainbowPos_toNat, BitVec.toNat_ofNat]

/-- The first `k` pixels of a wipe have their colors and the rest is as it was (R141). -/
theorem wipedTo_holds {p : Params} (h : p.legal = true) (f : Nat → Color) (m : Memory) (k : Nat) :
    (∀ i, i < k → PixelHolds p (wipedTo p f m k) i (f i)) ∧
    ∀ a, k * p.stride ≤ a → memRead (wipedTo p f m k) a = memRead m a := by
  refine ⟨fun i hi => pixLoop_holds h f 0 k m (Nat.zero_le i) (by omega), fun a ha => ?_⟩
  exact memRead_pixLoop_outside h f 0 k m (.inr (by rwa [Nat.zero_add]))

/-- The accepting step and two steps for each pixel: the whole wipe (R140, R141). -/
theorem run_accepted_wipe {job : Job} {f : Nat → Color} {s : State} {ws : List CmdWord} (hpos : 0 < s.params.npix)
    (hidle : s.phase = .idle) (h : PromptLines s) (hdelay : job.delay ≠ 0) (hcmds : s.cmds = job.cmd :: ws)
    (hf : jobColor s.params.npix job = some f) :
    core.run (2 * s.params.npix + 1) s = .next
      { s with
        cmds := ws
        mem := wipedTo s.params f s.mem s.params.npix
        phase := .idle
        events := s.events ++ wipeEvents s.params f job.delay s.mem 0 s.params.npix } := by
  obtain ⟨n, hn⟩ : ∃ n, s.params.npix = 1 + n := ⟨s.params.npix - 1, by omega⟩
  obtain ⟨hlines, hsample⟩ := prompt_lines h
  have haccept : step s = .next (wipePixel job f 0 (setCmds ws s)) := by
    rw [step_command (by rw [hlines]; rfl) hidle hcmds (decodeOfEncodeIsTheCommand job.instr), hsample,
      exec_job (s := setCmds ws s) hf, wipeSequence_animated (s := setCmds ws s) hpos hdelay]
  rw [wipePixel_of_lt (s := setCmds ws s) hpos] at haccept
  have hrest := run_wipe hdelay n (k := 1) (s := setPhase (.run job 1 .awaitDisplay)
    (emitDisplay (setMem (pixWrite s.params 0 (f 0) s.mem) (setCmds ws s)))) h rfl hf hn
  rw [show 2 * s.params.npix + 1 = 2 * n + 2 + 1 by omega, run_succ (2 * n + 2) haccept]
  refine hrest.trans (congrArg _ (state_ext rfl ?mem rfl rfl rfl ?events rfl rfl))
  case mem =>
    show pixLoop s.params f 1 n (pixWrite s.params 0 (f 0) s.mem) = wipedTo s.params f s.mem s.params.npix
    rw [hn, Nat.add_comm 1 n]
    rfl
  case events =>
    have hall := pixelEvents_wipedTo s.params f job.delay s.mem 0 s.params.npix
    rw [← hall, hn, Nat.add_comm 1 n]
    simp [wipeDone, pixelEvents, wipedTo, pixLoop]

/-- Settles O44: the run of an accepted wipe, whose frames and last buffer are those of R141. -/
theorem animatedWipeRunsToCompletion : Obligations.AnimatedWipeRunsToCompletion := by
  intro s job f ws hlegal hpos hidle h hdelay hcmds hcolors
  have hrun := run_accepted_wipe hpos hidle h hdelay hcmds (jobColor_of_spec hcolors)
  have hwiped := wipedTo_holds hlegal f s.mem
  obtain ⟨hpixels, hbeyond⟩ := hwiped s.params.npix
  refine ⟨_, hrun, rfl, rfl, rfl, rfl, rfl, rfl, rfl, hwiped, hpixels, fun a ha => hbeyond a ?_⟩
  exact Nat.le_of_not_lt fun hlt => ha ⟨Nat.zero_le a, by rwa [Nat.zero_add]⟩

/-! ### Completion from any stage -/

/-- The command in flight completes within `b` steps, and the words offered still wait. -/
def CompletesWithin (b : Nat) (s : State) : Prop :=
  ∃ n t, n ≤ b ∧ core.run n s = .next t ∧ t.phase = .idle ∧ t.cmds = s.cmds

theorem completesWithin_of_step {b : Nat} {s u : State} (hstep : step s = .next u) (hcmds : u.cmds = s.cmds)
    (h : CompletesWithin b u) : CompletesWithin (b + 1) s := by
  obtain ⟨n, t, hn, hrun, hidle, ht⟩ := h
  exact ⟨n + 1, t, Nat.succ_le_succ hn, (run_succ n hstep).trans hrun, hidle, ht.trans hcmds⟩

theorem completesWithin_of_idle (b : Nat) {s : State} (h : s.phase = .idle) : CompletesWithin b s :=
  ⟨0, s, Nat.zero_le b, run_zero s, h, rfl⟩

theorem CompletesWithin.mono {b b' : Nat} {s : State} (h : CompletesWithin b s) (hb : b ≤ b') :
    CompletesWithin b' s := by
  obtain ⟨n, t, hn, hrest⟩ := h
  exact ⟨n, t, hn.trans hb, hrest⟩

theorem completesWithin_awaitDisplay {job : Job} {f : Nat → Color} {i : Nat} {s : State} (h : PromptLines s)
    (hphase : s.phase = .run job i .awaitDisplay) (hdelay : job.delay ≠ 0) (hf : jobColor s.params.npix job = some f)
    (hi : i ≤ s.params.npix) : CompletesWithin (2 * (s.params.npix - i) + 2) s :=
  ⟨_, _, Nat.le_refl _, run_wipe hdelay (s.params.npix - i) h hphase hf (Nat.add_sub_cancel' hi).symm, rfl, rfl⟩

/-- From the write of pixel `i`, or from the end of the loop. -/
theorem completesWithin_wipePixel {job : Job} {f : Nat → Color} {s : State} (h : PromptLines s)
    (hdelay : job.delay ≠ 0) (hf : jobColor s.params.npix job = some f) (i : Nat) :
    CompletesWithin (2 * s.params.npix) (wipePixel job f i s) := by
  rcases Nat.lt_or_ge i s.params.npix with hlt | hge
  · rw [wipePixel_of_lt hlt]
    refine CompletesWithin.mono (completesWithin_awaitDisplay h rfl hdelay hf hlt) ?_
    show 2 * (s.params.npix - (i + 1)) + 2 ≤ 2 * s.params.npix
    omega
  · rw [wipePixel_of_ge hge]
    exact completesWithin_of_idle _ rfl

/-- Settles O57: a last Display ends at its acknowledgement, and every other stage leads to the next pixel. -/
theorem commandInFlightCompletes : Obligations.CommandInFlightCompletes := by
  intro s hinv h hbusy
  show CompletesWithin (2 * s.params.npix + 1 + 1) s
  obtain ⟨job, i, stage, hphase⟩ := busy_iff.1 hbusy
  have hok : PhaseOk s.params.npix (.run job i stage) := hphase ▸ hinv.phaseOk
  have hstep := step_run_prompt h hphase
  by_cases hfinal : stage = .awaitFinalDisplay
  · subst hfinal
    rw [stageStep_awaitFinalDisplay job i s rfl] at hstep
    exact completesWithin_of_step hstep rfl (completesWithin_of_idle _ rfl)
  · have hdelay := hok.delay_ne_zero hfinal
    have hjob := job_ne_showBuf_of_delay hdelay
    obtain ⟨f, hf⟩ := exists_jobColor hjob s.params.npix
    obtain ⟨-, hi, -⟩ := (phaseOk_wipe hjob).1 hok
    have hpixel := (completesWithin_wipePixel h hdelay hf i).mono (Nat.le_succ _)
    have hcmds : (stageStep job i stage Lines.prompt s).cmds = s.cmds := (stageStep_frame job i stage _ s).2.2.2.1
    cases stage with
    | awaitFinalDisplay => exact absurd rfl hfinal
    | awaitDisplay => exact (completesWithin_awaitDisplay h hphase hdelay hf hi).mono (by omega)
    | write =>
      rw [stageStep_wipePixel i s hf (.inl rfl)] at hstep hcmds
      exact completesWithin_of_step hstep hcmds hpixel
    | awaitWait =>
      rw [stageStep_wipePixel i s hf (.inr ⟨rfl, rfl⟩)] at hstep hcmds
      exact completesWithin_of_step hstep hcmds hpixel

end Sys2Proof.Machine
end
